-- ==== Sys2Proof/Config.lean ====
section
/-!
DEFINITION. The constants that the spec fixes (R4), and the parameters that it leaves open (R5).
-/

namespace Sys2Proof.Config

/-- R4, FRAME_LEN: the bytes of one frame, which are also the slots of `buf` (R24). -/
abbrev frameLen : Nat := 32

/-- R4, MAGIC0: the first header byte on the wire. -/
abbrev magic0 : BitVec 8 := 0x42#8

/-- R4, MAGIC1: the second header byte on the wire. -/
abbrev magic1 : BitVec 8 := 0x4D#8

/-- R4, HDR_LEN: the bytes of the header phase. -/
abbrev hdrLen : Nat := 2

/-- R4, BODY_LEN: the bytes taken after a header match. -/
abbrev bodyLen : Nat := 30

/-- R4, CSUM_LO..CSUM_HI is 0..29: the number of bytes that the checksum sums. -/
abbrev summedLen : Nat := 30

/-- R4, CSUM_POS: the index of the high byte of the checksum field. -/
abbrev csumPos : Nat := 30

/-- R4, PM1_POS. -/
abbrev pm1Pos : Nat := 4

/-- R4, PM25_POS. -/
abbrev pm25Pos : Nat := 6

/-- R4, PM10_POS. -/
abbrev pm10Pos : Nat := 8

/-- R4, SCALE: the divisor of the float scaler. -/
abbrev scale : Nat := 10

/-- R5, TICK: OPEN, the length of one timeout count in a unit the spec does not name. No rule of the
untimed model reads it (log 3, safe). -/
opaque tick : Nat

/-- R5, TS_EPOCH: OPEN, the instant that timestamp value 0 stands for. No rule reads it (log 3, safe). -/
opaque tsEpoch : Nat

/-- The TMO_W for which spec/opcode_table.json and 95_test_vectors.md write the command words. -/
abbrev tableTmoW : Nat := 16

end Sys2Proof.Config

namespace Sys2Proof

/-- The widths that R5 leaves OPEN (I14, I15): arguments of the model. A machine carries its own in its state, where no step
writes them, so a claim about every state is a claim about every choice of them (log 1, 2). -/
structure Params where
  /-- TMO_W, the bits of `cmd_arg` and of `tmo`. -/
  tmoW : Nat
  /-- TS_W, the bits of `now` and of `captured_at`. -/
  tsW : Nat
  deriving DecidableEq, Repr

/-- R5: each of the two is at least 1. -/
def Params.legal (p : Params) : Bool := decide (1 ≤ p.tmoW) && decide (1 ≤ p.tsW)

/-- The widths of `State.reset`: the table's TMO_W (DESIGN CHOICE, log 1) and a TS_W of 64 (DESIGN CHOICE, log 2). -/
def Params.ofTable : Params where
  tmoW := Config.tableTmoW
  tsW := 64

end Sys2Proof
end

