-- ==== Sys2Proof/Word.lean ====
section
/-!
DEFINITION. The word types of the block (R8: every quantity is unsigned, bit 0 the least significant). A quantity of fixed
width is a bit vector. One whose width is a parameter of the machine (R5) is a natural number below 2 to that width; no rule
computes with it.
-/

namespace Sys2Proof

/-- `u8`: a byte of the stream or of a `buf` slot. -/
abbrev Byte := BitVec 8

/-- `u16`: the running checksum and the raw fields. -/
abbrev Half := BitVec 16

/-- An IEEE 754 binary64 bit pattern (R66). -/
abbrev F64 := BitVec 64

/-- A window length in TICKs, below `2 ^ TMO_W` (R25, R63). -/
abbrev Ticks := Nat

/-- A capture timestamp, below `2 ^ TS_W` (R142). -/
abbrev Timestamp := Nat

/-- The two bits of `cmd_op` (R62). -/
abbrev Op := BitVec 2

/-- A command word `op ++ arg`, below `2 ^ (TMO_W + 2)` (R61). -/
abbrev CmdWord := Nat

end Sys2Proof
end

