-- ==== Sys2Proof/Syntax.lean ====
section
/-!
DEFINITION. The events of the block, one constructor for each row of spec/opcode_table.json, and the lines of
the program text of R70.
-/

namespace Sys2Proof

/-- One event: a host command (40_session.md), a channel event (41_frame_sync.md) or reset
(70_reset_and_hazards.md). CMD0, DISCONNECT and READ carry the `arg` bits they ignore (R63), so that no bit of
a command word is dropped. The draws of R10 (`ch_ok`, `now`) are inputs in the state, not operands. -/
inductive Instr where
  /-- The reserved command, op 00 (R84). -/
  | cmd0 (arg : Ticks)
  /-- Open the channel with window length `arg` (R81). -/
  | connect (arg : Ticks)
  /-- Close the channel (R82). -/
  | disconnect (arg : Ticks)
  /-- Start one frame attempt (R83). -/
  | read (arg : Ticks)
  /-- The channel delivers the byte `b` (R101, R104). -/
  | rx (b : Byte)
  /-- The window ends, or the channel reports end of stream (R106, R107). -/
  | expire
  /-- The channel reports an I/O error (R108). -/
  | ioerr
  /-- `rst` is asserted (R180). -/
  | reset
  deriving DecidableEq, Repr

/-- One line of the program text of R70: the basic lines, each one step, and the pseudo-instructions RXS, FRAME and
BADFRAME. `now` is the `@now` annotation; a line without it stands for the line with any `now`. `fill` is the bytes
`f10 ... f29`, `none` when they are not written. The decimal operands are kept as written, so they may be out of range:
`Line.wellFormed` checks them. -/
inductive Line where
  | connect (t : Ticks) (ok : Bool)
  | disconnect
  | read
  | cmd0
  | rx (b : Byte) (now : Timestamp)
  | expire
  | ioerr
  | reset
  | rxs (bs : List Byte) (now : Timestamp)
  | frame (a b c : Nat) (fill : Option (List Byte)) (now : Timestamp)
  | badframe (a b c : Nat) (fill : Option (List Byte)) (now : Timestamp)
  deriving DecidableEq, Repr

end Sys2Proof
end

