-- ==== Sys2Proof/WellFormed.lean ====
section
/-!
DEFINITION. Which events and which program lines are well formed, for the widths of a machine (R5).
-/

namespace Sys2Proof

/-- The value fits in `w` bits. -/
def fits (w v : Nat) : Bool := decide (v < 2 ^ w)

/-- An `arg` has TMO_W bits (R61, R63), every such value is legal (R81: `arg == 0` too), and every byte is taken (R101). All four
`op` values are defined (R62). -/
def Instr.wellFormed (tmoW : Nat) : Instr → Bool
  | .cmd0 arg => fits tmoW arg
  | .connect arg => fits tmoW arg
  | .disconnect arg => fits tmoW arg
  | .read arg => fits tmoW arg
  | .rx _ => true
  | .expire => true
  | .ioerr => true
  | .reset => true

/-- The bytes `f10 ... f29`, where they are written, are twenty (R70). -/
def fillOk : Option (List Byte) → Bool
  | none => true
  | some bs => bs.length == 20

/-- The operands of FRAME and BADFRAME (R70): three integers from 0 to 65535 and the bytes f10..f29. -/
def frameOperandsOk (a b c : Nat) (fill : Option (List Byte)) : Bool :=
  decide (a ≤ 65535) && decide (b ≤ 65535) && decide (c ≤ 65535) && fillOk fill

/-- A line of R70 that stands for steps: its timeout has TMO_W bits and its `@now` TS_W bits. RXS takes at least one byte
(`h0 h1 ... hn`). -/
def Line.wellFormed (p : Params) : Line → Bool
  | .connect t _ => fits p.tmoW t
  | .disconnect => true
  | .read => true
  | .cmd0 => true
  | .rx _ now => fits p.tsW now
  | .expire => true
  | .ioerr => true
  | .reset => true
  | .rxs bs now => !bs.isEmpty && fits p.tsW now
  | .frame a b c fill now => frameOperandsOk a b c fill && fits p.tsW now
  | .badframe a b c fill now => frameOperandsOk a b c fill && fits p.tsW now

end Sys2Proof
end

