-- ==== Sys2Proof/Decode.lean ====
section
/-!
DEFINITION. Decoding and encoding, for any TMO_W. The command word is R61 and R62; the channel and control events are port
conditions (R67).

To give every event one form, the model lays the input ports of one event out as an EVENT WORD (DESIGN CHOICE, log 12). Its
payload, bits P-1..0 with P the larger of TMO_W + 2 and 8, is a command word or, in bits 7..0, `rx_data`. Above it stand the
lines: bit P `rx_valid`, P+1 `rx_eof`, P+2 `rx_err`, P+3 `rst`, P+4 window expiry. The bits above are zero.

With the lines clear the word is the command word itself, which for TMO_W = 16 spec/opcode_table.json numbers so: bits 17..16
`cmd_op`, bits 15..0 `cmd_arg`; the lines are then bits 22..18 of 24.
-/

namespace Sys2Proof

/-- What a port or a field of `w` bits carries of a value: its low `w` bits. -/
def lowBits (w v : Nat) : Nat := v % 2 ^ w

/-- R62: the operation code of CMD0, reserved. -/
def opCmd0 : Op := 0b00#2
/-- R62. -/
def opConnect : Op := 0b01#2
/-- R62. -/
def opDisconnect : Op := 0b10#2
/-- R62. -/
def opRead : Op := 0b11#2

/-- R61: `op` is bits [TMO_W+1:TMO_W]. -/
def cmdOp (tmoW : Nat) (w : CmdWord) : Op := BitVec.ofNat 2 (w / 2 ^ tmoW)

/-- R61: `arg` is bits [TMO_W-1:0]. -/
def cmdArg (tmoW : Nat) (w : CmdWord) : Ticks := lowBits tmoW w

/-- R61: a command word is `op ++ arg`, `op` in the high bits. -/
def cmdWord (tmoW : Nat) (op : Op) (arg : Ticks) : CmdWord := op.toNat * 2 ^ tmoW + lowBits tmoW arg

/-- R62, R69: a decoder of commands reads `cmd_op` and nothing else, and all four values are defined. -/
def decodeCommand (tmoW : Nat) (w : CmdWord) : Instr :=
  if cmdOp tmoW w = opCmd0 then .cmd0 (cmdArg tmoW w)
  else if cmdOp tmoW w = opConnect then .connect (cmdArg tmoW w)
  else if cmdOp tmoW w = opDisconnect then .disconnect (cmdArg tmoW w)
  else .read (cmdArg tmoW w)

/-- Why a byte string is no event word. -/
inductive DecodeError where
  /-- Fewer bytes than an event word has. -/
  | tooShort
  /-- A bit above the lines, which no port has, is set. -/
  | reservedBit
  /-- More than one of byte, expiry, error and reset: each is taken in a step of its own (R67). -/
  | severalEvents
  /-- A bit that the event does not use is set. -/
  | strayBits
  deriving DecidableEq, Repr

/-- The bits of an event word's payload: a command word or a byte, whichever is longer. -/
def payloadWidth (tmoW : Nat) : Nat := max (tmoW + 2) 8

/-- The bytes of an event word: its payload and its five lines, in whole bytes. -/
def eventBytes (tmoW : Nat) : Nat := (payloadWidth tmoW + 5 + 7) / 8

/-- The lines of an event word that are set. -/
def eventLines (tmoW w : Nat) : BitVec 5 := BitVec.ofNat 5 (w / 2 ^ payloadWidth tmoW)

/-- The payload of an event word: a command word, or a byte in bits 7..0. -/
def eventPayload (tmoW w : Nat) : Nat := lowBits (payloadWidth tmoW) w

/-- A payload with lines clear: a command word (R61). -/
def decodeCommandPayload (tmoW p : Nat) : Except DecodeError Instr :=
  if fits (tmoW + 2) p then .ok (decodeCommand tmoW p) else .error .strayBits

/-- A payload with `rx_valid` set (R67: `b = rx_data[7:0]`). -/
def decodeBytePayload (p : Nat) : Except DecodeError Instr :=
  if fits 8 p then .ok (.rx (BitVec.ofNat 8 p)) else .error .strayBits

/-- An event without an operand: its payload bits are clear. -/
def decodeBare (p : Nat) (i : Instr) : Except DecodeError Instr :=
  if p = 0 then .ok i else .error .strayBits

/-- The event that an event word stands for. The lines, high to low: window expiry, `rst`, `rx_err`, `rx_eof`, `rx_valid`.
Window expiry and `rx_eof` are one event, EXPIRE (R67, D11). -/
def decodeWord (tmoW w : Nat) : Except DecodeError Instr :=
  if !fits (payloadWidth tmoW + 5) w then .error .reservedBit
  else if eventLines tmoW w = 0b00000#5 then decodeCommandPayload tmoW (eventPayload tmoW w)
  else if eventLines tmoW w = 0b00001#5 then decodeBytePayload (eventPayload tmoW w)
  else if eventLines tmoW w = 0b00010#5 ∨ eventLines tmoW w = 0b10000#5 ∨ eventLines tmoW w = 0b10010#5 then
    decodeBare (eventPayload tmoW w) .expire
  else if eventLines tmoW w = 0b00100#5 then decodeBare (eventPayload tmoW w) .ioerr
  else if eventLines tmoW w = 0b01000#5 then decodeBare (eventPayload tmoW w) .reset
  else .error .severalEvents

/-- Bytes as a number, the first the least significant (DESIGN CHOICE, log 12: a port is a parallel bus and has no byte
order, R66). -/
def wordOfBytes : List Byte → Nat
  | [] => 0
  | b :: bs => b.toNat + 256 * wordOfBytes bs

/-- The low `n` bytes of a number, the least significant first. -/
def bytesOfWord : Nat → Nat → List Byte
  | 0, _ => []
  | n + 1, w => BitVec.ofNat 8 w :: bytesOfWord n (w / 256)

/-- Decoding of any bytes: the first event and the bytes after it. -/
def decode (tmoW : Nat) (bs : List Byte) : Except DecodeError (Instr × List Byte) :=
  if bs.length < eventBytes tmoW then .error .tooShort
  else
    match decodeWord tmoW (wordOfBytes (bs.take (eventBytes tmoW))) with
    | .ok i => .ok (i, bs.drop (eventBytes tmoW))
    | .error e => .error e

/-- The command word of a command (R61, R62); the other events have none. -/
def encodeCommand (tmoW : Nat) : Instr → Option CmdWord
  | .cmd0 arg => some (cmdWord tmoW opCmd0 arg)
  | .connect arg => some (cmdWord tmoW opConnect arg)
  | .disconnect arg => some (cmdWord tmoW opDisconnect arg)
  | .read arg => some (cmdWord tmoW opRead arg)
  | .rx _ => none
  | .expire => none
  | .ioerr => none
  | .reset => none

/-- An event word from its lines and its payload. -/
def eventWord (tmoW : Nat) (ls : BitVec 5) (payload : Nat) : Nat := ls.toNat * 2 ^ payloadWidth tmoW + payload

/-- The event word of an event. EXPIRE is encoded by `rx_eof`. -/
def encodeWord (tmoW : Nat) : Instr → Nat
  | .cmd0 arg => eventWord tmoW 0b00000#5 (cmdWord tmoW opCmd0 arg)
  | .connect arg => eventWord tmoW 0b00000#5 (cmdWord tmoW opConnect arg)
  | .disconnect arg => eventWord tmoW 0b00000#5 (cmdWord tmoW opDisconnect arg)
  | .read arg => eventWord tmoW 0b00000#5 (cmdWord tmoW opRead arg)
  | .rx b => eventWord tmoW 0b00001#5 b.toNat
  | .expire => eventWord tmoW 0b00010#5 0
  | .ioerr => eventWord tmoW 0b00100#5 0
  | .reset => eventWord tmoW 0b01000#5 0

/-- The bytes of an event. -/
def encode (tmoW : Nat) (i : Instr) : List Byte := bytesOfWord (eventBytes tmoW) (encodeWord tmoW i)

/-- The event that the decoder reads from a row of spec/opcode_table.json, which is written for TMO_W = 16: `nbits` is 24 (a
command's 18 bits in whole bytes), or 8 for the row RX, whose bits are `rx_data` alone. A word wider than an event word is no
event. -/
def decodeTableWord (nbits w : Nat) : Option Instr :=
  if nbits = 8 then
    if fits 8 w then some (.rx (BitVec.ofNat 8 w)) else none
  else if nbits = 0 then none
  else if fits 24 w then
    match decode Config.tableTmoW (bytesOfWord (eventBytes Config.tableTmoW) w) with
    | .ok (i, _) => some i
    | .error _ => none
  else none

end Sys2Proof
end

