-- ==== Sys2Proof/Machine/State.lean ====
section
/-!
DEFINITION. The state of the block (10_state.md), the environment it steps in, and why a step can stop.
-/

namespace Sys2Proof.Machine

/-- R20: DISC=0, CONN=1. -/
inductive Session where
  | disc
  | conn
  deriving DecidableEq, Repr

/-- R21: IDLE=0, HDR=1, BODY=2. `unused` is the value 3 of the two bits, which is never written. -/
inductive Phase where
  | idle
  | hdr
  | body
  | unused
  deriving DecidableEq, Repr

/-- R64: the status codes, in the order of their numbers. -/
inductive Status where
  | ok
  | syncFail
  | csumFail
  | decodeFail
  | connError
  | lifecycleError
  | ioError
  | badCmd
  deriving DecidableEq, Repr

/-- R28: one decoded reading. -/
structure Measurement where
  pm1Raw : Half
  pm25Raw : Half
  pm10Raw : Half
  pm1 : F64
  pm25 : F64
  pm10 : F64
  capturedAt : Timestamp
  deriving DecidableEq, Repr

/-- R27: how one command ended. -/
structure Result where
  status : Status
  meas : Option Measurement
  deriving DecidableEq, Repr

/-- The frame buffer (R24, R40): the slots that hold a byte, as (index, byte) pairs, indices strictly rising and below 32.
A slot that is not listed holds no value. -/
abbrev Memory := List Host.Cell

/-- A command that the host presents on `cmd_op` and `cmd_arg` (R61), with the `ch_ok` draw of the step that accepts it
(R10, R81). Of `word` the ports carry the low TMO_W + 2 bits (log 5). -/
structure HostOffer where
  word : CmdWord
  chOk : Bool
  deriving DecidableEq, Repr

/-- What the channel and the window timer show in an attempt (R67). `byte` carries the `now` draw of the step that
takes it (R142), of which the port carries the low TS_W bits (log 4). -/
inductive ChanOffer where
  /-- `rx_valid` with `rx_data`. -/
  | byte (b : Byte) (now : Timestamp)
  /-- `rx_eof`. -/
  | eof
  /-- The window timer runs out (R26, R111). -/
  | windowEnd
  /-- `rx_err`. -/
  | error
  deriving DecidableEq, Repr

/-- The draws sampled in the current step (R10): the model's own fields, loaded by `fetch` from the offer it takes. -/
structure Inputs where
  chOk : Bool
  now : Timestamp
  deriving DecidableEq, Repr

/-- The environment: what its agents will offer from here on, each in its own order. `host` is the commands the host will
present (log 5), `chan` the channel events the attempts will meet (log 6), `rst` the reset line, one sample a step (log 8).
An exhausted `rst` reads as low. -/
structure Env where
  host : List HostOffer
  chan : List ChanOffer
  rst : List Bool
  deriving DecidableEq, Repr

/-- All that the spec gives the block (10_state.md section 1), with `resValid` the `res_valid` strobe of the step just
taken (R27, R85), the draws of the step, the environment, and the widths of this machine (R5), which no step writes. -/
structure State where
  params : Params
  session : Session
  phase : Phase
  cnt : BitVec 6
  acc : Half
  buf : Memory
  tmo : Option Ticks
  last : Option Result
  resValid : Bool
  inp : Inputs
  env : Env
  deriving DecidableEq, Repr

/-- Why the machine stops. -/
inductive Fault where
  /-- A `buf` slot that holds no value is read (R10: "A read of a slot that holds no value is a model fault"). Raised by the
  header check, the validator and the decoder. No run from reset raises it (R32). Safe. -/
  | emptySlot (index : Nat)
  /-- An RX names a slot above 31, which does not exist (R40). No run from reset raises it (R32). Safe. -/
  | noSlot (index : Nat)
  /-- `phase` holds the unused value 3 (R21: "a model that reaches it faults"; I6). Raised by every event but RESET. Safe. -/
  | illegalPhase
  /-- `finish` is given DECODE_FAIL (I4: "a model that emits code 3 has left the rules"). No meaning does so. Safe. -/
  | decodeFailEmitted
  /-- An output that holds no value is read (R60, I2: "a read of one faults"). Raised by `readPort` only. Safe. -/
  | noPortValue
  deriving DecidableEq, Repr

/-- Why an event has no step. -/
inductive Refusal where
  /-- An instruction without a meaning. No arm of `exec` answers it. -/
  | notModelled (mnemonic : String)
  /-- A command while an attempt is in progress (R80: "a command event is enabled only when `phase == IDLE`"). `step` never
  offers one: it stays pending with the host. Safe: the event has no step. -/
  | commandWhileBusy
  /-- RX, EXPIRE or IOERR while `phase == IDLE` (R67: "has no step"). `step` never offers one: it stays pending with the
  channel. Safe. -/
  | channelEventWhileIdle
  /-- The block is IDLE, and neither the host nor the reset line offers an event (R7: each step consumes exactly one event).
  Raised by `fetch`. Safe: a stuck state. -/
  | noEvent
  deriving DecidableEq, Repr

/-- The block of widths `p` after RESET (R180, with the values of R20 to R27), with no event offered. The values of `inp` and
`env` are the model's own (DESIGN CHOICE, log 4, 5, 6, 8). -/
def State.resetWith (p : Params) : State where
  params := p
  session := .disc
  phase := .idle
  cnt := 0#6
  acc := 0#16
  buf := []
  tmo := none
  last := none
  resValid := false
  inp := { chOk := false, now := 0 }
  env := { host := [], chan := [], rst := [] }

/-- The block after RESET, with the widths of `Params.ofTable` (log 1, 2). -/
def State.reset : State := State.resetWith Params.ofTable

end Sys2Proof.Machine
end

