-- ==== Sys2Proof/Machine/Ops.lean ====
section
/-!
DEFINITION. The shared operations: the frame buffer, the start of an attempt, completion, and when an event is enabled.

Completion (`finish`) is what this block has in place of taking an exception: "No trap entry. A failure saves no state and
changes no mode" (R163), and there is no return from one (R164).
-/

namespace Sys2Proof.Machine

/-- The outcomes of a step of this block. -/
abbrev Out := Host.Outcome State Fault Refusal

/-! ## The frame buffer (R24, R40) -/

/-- What a slot that is not listed reads as: no value (R24: every slot is `none` at reset). -/
def Memory.unlisted : Option Byte := none

/-- The contents of a slot. -/
def Memory.slot : Memory → Nat → Option Byte
  | [], _ => Memory.unlisted
  | (k, v) :: rest, i => if k = i then some v else Memory.slot rest i

/-- `buf[i] <- b` (R10), keeping the canonical form. -/
def Memory.put : Memory → Nat → Byte → Memory
  | [], i, b => [(i, b)]
  | (k, v) :: rest, i, b =>
    if i < k then (i, b) :: (k, v) :: rest
    else if i = k then (i, b) :: rest
    else (k, v) :: Memory.put rest i b

/-- Every slot `none` (R83, R85, R180). -/
def Memory.empty : Memory := []

/-- The indices are strictly rising, from `lo` on, and below 32. -/
def Memory.risesFrom : Nat → Memory → Bool
  | _, [] => true
  | lo, (k, _) :: rest => decide (lo ≤ k) && decide (k < Config.frameLen) && Memory.risesFrom (k + 1) rest

/-- The canonical form of the frame buffer. Every listed slot holds a byte, so none reads as an unlisted one does. -/
def Memory.wf (m : Memory) : Bool := Memory.risesFrom 0 m

/-- A read of a slot (R10): a slot that holds no value faults. -/
def readSlot (m : Memory) (i : Nat) : Except Fault Byte :=
  match Memory.slot m i with
  | some b => .ok b
  | none => .error (.emptySlot i)

/-! ## Steps -/

/-- A step in which no result is emitted: `res_valid` is low (R85: it is high in the step of `finish` only). -/
def State.quiet (s : State) : State := { s with resValid := false }

/-- No attempt in progress: phase IDLE, the counters 0, every slot `none` (the first five lines of `finish`, R85). -/
def State.clearAttempt (s : State) : State :=
  { s with phase := .idle, cnt := 0#6, acc := 0#16, buf := Memory.empty }

/-- The start of an attempt (R83): phase HDR, the counters 0, every slot `none`. -/
def State.startAttempt (s : State) : State :=
  { s with phase := .hdr, cnt := 0#6, acc := 0#16, buf := Memory.empty }

/-- The result of a command is driven and held (R27, R85). -/
def State.emit (st : Status) (m : Option Measurement) (s : State) : State :=
  { s with last := some { status := st, meas := m }, resValid := true }

/-- R85: every command ends with `finish`. `session` and `tmo` do not change. DECODE_FAIL is never emitted (R145, I4). -/
def finish (st : Status) (m : Option Measurement) (s : State) : Out :=
  if st = .decodeFail then .fault .decodeFailEmitted
  else .next (s.clearAttempt.emit st m)

/-- R80: a command is accepted only when `phase == IDLE`. The step that accepts it begins with `res_valid` low. -/
def acceptCommand (meaning : State → Out) (s : State) : Out :=
  match s.phase with
  | .idle => meaning s.quiet
  | .hdr => .refused .commandWhileBusy
  | .body => .refused .commandWhileBusy
  | .unused => .fault .illegalPhase

/-- R67: a channel event is enabled only while `phase` is HDR or BODY; each phase gives it its own meaning. -/
def channelEvent (inHdr inBody : State → Out) (s : State) : Out :=
  match s.phase with
  | .idle => .refused .channelEventWhileIdle
  | .hdr => inHdr s.quiet
  | .body => inBody s.quiet
  | .unused => .fault .illegalPhase

/-- The slot that an RX writes: slot `cnt` (R22, R24). -/
def rxSlot (s : State) : Nat := s.cnt.toNat

/-- The byte is stored in slot `cnt` and counted (R101, R104). Slots above 31 do not exist (R40). -/
def takeByte (b : Byte) (s : State) : Except Fault State :=
  if rxSlot s < Config.frameLen then
    .ok { s with buf := Memory.put s.buf (rxSlot s) b, cnt := s.cnt + 1#6 }
  else .error (.noSlot (rxSlot s))

/-- A computation that may fault, as an outcome. -/
def orFault {α : Type} (x : Except Fault α) (k : α → Out) : Out :=
  match x with
  | .ok a => k a
  | .error f => .fault f

end Sys2Proof.Machine
end

