-- ==== Sys2Proof/Machine/Operands.lean ====
section
/-!
DEFINITION. The fields of a frame, big-endian (R9, R42, R43), and the float scaler (R141).
-/

namespace Sys2Proof.Machine

/-- R9: `be16(hi, lo) = zext_16(hi) << 8 | zext_16(lo)`. -/
def be16 (hi lo : Byte) : Half := (hi.setWidth 16 <<< 8) ||| lo.setWidth 16

/-- R9: `be16(buf, i)`, the byte at the lower index the more significant (R42). -/
def be16At (m : Memory) (i : Nat) : Except Fault Half :=
  match readSlot m i with
  | .error f => .error f
  | .ok hi =>
    match readSlot m (i + 1) with
    | .error f => .error f
    | .ok lo => .ok (be16 hi lo)

/-- The exponent of the scaler's result plus 4: for `v ≥ 1` the `L` with `2 ^ L ≤ 16 * v / 10 < 2 ^ (L + 1)`. -/
def scaledLog (v : Nat) : Nat := (16 * v / Config.scale).log2

/-- The 53-bit significand: the integer nearest to `v / 10 * 2 ^ (56 - L)`. That number is never half-way between two
integers, because `v * 2 ^ (56 - L)` is even. -/
def scaledSignificand (v : Nat) : Nat := (v * 2 ^ (56 - scaledLog v) + 5) / Config.scale

/-- R141: the binary64 number nearest to `v / 10`. For `v ≥ 1` the result is `significand * 2 ^ (L - 56)`, whose biased exponent
is `L - 4 + 1023`; the significand's top bit, the implied one, is carried into the exponent field by the sum. -/
def f64Div10 (v : Half) : F64 :=
  if v = 0#16 then 0#64
  else BitVec.ofNat 64 ((scaledLog v.toNat + 1018) * 2 ^ 52 + scaledSignificand v.toNat)

/-- R140, R141, R142: the Measurement of a checksum-valid frame, its timestamp the `now` draw. -/
def decodeFields (m : Memory) (now : Timestamp) : Except Fault Measurement :=
  match be16At m Config.pm1Pos with
  | .error f => .error f
  | .ok v1 =>
    match be16At m Config.pm25Pos with
    | .error f => .error f
    | .ok v25 =>
      match be16At m Config.pm10Pos with
      | .error f => .error f
      | .ok v10 =>
        .ok { pm1Raw := v1, pm25Raw := v25, pm10Raw := v10, pm1 := f64Div10 v1, pm25 := f64Div10 v25,
              pm10 := f64Div10 v10, capturedAt := now }

end Sys2Proof.Machine
end

