-- ==== Sys2Proof/Machine/Flags.lean ====
section
/-!
DEFINITION. The checksum (42_checksum.md), the codes of the state fields and statuses (R20, R21, R64, R65). The block has no
flags; the status code and its class bit stand in their place (R65).
-/

namespace Sys2Proof.Machine

/-- R101, R104, R122: `acc <- (acc + zext_16(b)) mod 2^16`. -/
def addToSum (acc : Half) (b : Byte) : Half := acc + b.setWidth 16

/-- R121: `Valid() = (acc == be16(buf, 30))`, the form the hardware computes. -/
def checksumValid (acc : Half) (m : Memory) : Except Fault Bool :=
  match be16At m Config.csumPos with
  | .error f => .error f
  | .ok c => .ok (acc == c)

/-- R20. -/
def Session.code : Session → BitVec 1
  | .disc => 0#1
  | .conn => 1#1

/-- R21. -/
def Phase.code : Phase → BitVec 2
  | .idle => 0#2
  | .hdr => 1#2
  | .body => 2#2
  | .unused => 3#2

/-- R64. -/
def Status.code : Status → BitVec 3
  | .ok => 0#3
  | .syncFail => 1#3
  | .csumFail => 2#3
  | .decodeFail => 3#3
  | .connError => 4#3
  | .lifecycleError => 5#3
  | .ioError => 6#3
  | .badCmd => 7#3

/-- R65: bit 2 separates the failures that the source raises from the per-read ones. -/
def Status.raised (st : Status) : Bool := st.code.getLsbD 2

end Sys2Proof.Machine
end

