-- ==== Sys2Proof/Machine/FrameSync.lean ====
section
/-!
DEFINITION. The channel events of an attempt (41_frame_sync.md).
-/

namespace Sys2Proof.Machine

/-- R102: the header check, in the step that takes the second byte. A match opens the body phase. -/
def headerCheck (s : State) : Out :=
  orFault (readSlot s.buf 0) fun b0 =>
    orFault (readSlot s.buf 1) fun b1 =>
      if b0 = Config.magic0 ∧ b1 = Config.magic1 then .next { s with phase := .body }
      else finish .syncFail none s

/-- R105, R125, R143: frame completion, in the step that takes byte 31. Validation comes before decoding (R161). -/
def complete (s : State) : Out :=
  orFault (checksumValid s.acc s.buf) fun valid =>
    if valid then orFault (decodeFields s.buf s.inp.now) fun m => finish .ok (some m) s
    else finish .csumFail none s

/-- R101: RX in the header phase. The byte is stored, added and counted; the second byte brings the header check. -/
def rxHeader (b : Byte) (s : State) : Out :=
  orFault (takeByte b s) fun t =>
    let u := { t with acc := addToSum s.acc b }
    if rxSlot s = 1 then headerCheck u else .next u

/-- R104: RX in the body phase. Bytes 30 and 31 are stored but not added; byte 31 completes the frame. -/
def rxBody (b : Byte) (s : State) : Out :=
  orFault (takeByte b s) fun t =>
    let u := if rxSlot s < Config.summedLen then { t with acc := addToSum s.acc b } else t
    if rxSlot s = 31 then complete u else .next u

/-- RX (R101, R104). -/
def execRx (b : Byte) (s : State) : Out := channelEvent (rxHeader b) (rxBody b) s

/-- EXPIRE (R106 in the header phase, R107 in the body phase): SYNC_FAIL, the bytes taken are discarded. -/
def execExpire (s : State) : Out := channelEvent (finish .syncFail none) (finish .syncFail none) s

/-- IOERR (R108): IO_ERROR, the session stays as it is. -/
def execIoerr (s : State) : Out := channelEvent (finish .ioError none) (finish .ioError none) s

end Sys2Proof.Machine
end

