-- ==== Sys2Proof/Machine/Reset.lean ====
section
/-!
DEFINITION. Reset (70_reset_and_hazards.md).
-/

namespace Sys2Proof.Machine

/-- RESET (R180, R181), enabled in every state: every state element takes its reset value, and no result is emitted. The
widths are parameters and stay (R5). Bytes still in the channel and commands the host still presents are outside the block and
stay (log 25). -/
def execReset (s : State) : Out :=
  .next { State.resetWith s.params with inp := s.inp, env := s.env }

end Sys2Proof.Machine
end

