-- ==== Sys2Proof/Machine/Session.lean ====
section
/-!
DEFINITION. The host commands (40_session.md).
-/

namespace Sys2Proof.Machine

/-- CMD0 (R84): BAD_CMD, and no other state changes. `arg` is ignored. -/
def execCmd0 (_arg : Ticks) (s : State) : Out :=
  acceptCommand (finish .badCmd none) s

/-- CONNECT (R81). LIFECYCLE_ERROR when already connected; otherwise the channel answers `ch_ok`. -/
def execConnect (arg : Ticks) (s : State) : Out :=
  acceptCommand
    (fun t =>
      match t.session with
      | .conn => finish .lifecycleError none t
      | .disc =>
        match t.inp.chOk with
        | true => finish .ok none { t with session := .conn, tmo := some arg }
        | false => finish .connError none t)
    s

/-- DISCONNECT (R82): OK in every session state. `arg` is ignored. -/
def execDisconnect (_arg : Ticks) (s : State) : Out :=
  acceptCommand (fun t => finish .ok none { t with session := .disc }) s

/-- READ (R83): LIFECYCLE_ERROR when disconnected; otherwise an attempt starts, and no result comes in this step. `arg` is
ignored. The header window that it starts is RTL state (R26). -/
def execRead (_arg : Ticks) (s : State) : Out :=
  acceptCommand
    (fun t =>
      match t.session with
      | .disc => finish .lifecycleError none t
      | .conn => .next t.startAttempt)
    s

end Sys2Proof.Machine
end

