-- ==== Sys2Proof/Machine/Dispatch.lean ====
section
/-! DEFINITION. One arm per event of the block. -/

namespace Sys2Proof.Machine

def exec (i : Instr) (s : State) : Host.Outcome State Fault Refusal :=
  match i with
  | .cmd0 arg => Sys2Proof.Machine.execCmd0 arg s
  | .connect arg => Sys2Proof.Machine.execConnect arg s
  | .disconnect arg => Sys2Proof.Machine.execDisconnect arg s
  | .read arg => Sys2Proof.Machine.execRead arg s
  | .rx b => Sys2Proof.Machine.execRx b s
  | .expire => Sys2Proof.Machine.execExpire s
  | .ioerr => Sys2Proof.Machine.execIoerr s
  | .reset => Sys2Proof.Machine.execReset s

end Sys2Proof.Machine
end

