-- ==== Sys2Proof/Machine/Fetch.lean ====
section
/-!
DEFINITION. Which event the next step consumes (R7, R45, R67, R80, R181), and placing an event so that it comes next.
-/

namespace Sys2Proof.Machine

/-- R67: the event that a channel offer gives. End of stream is folded into EXPIRE (D11). -/
def ChanOffer.event : ChanOffer → Instr
  | .byte b _ => .rx b
  | .eof => .expire
  | .windowEnd => .expire
  | .error => .ioerr

/-- The offer is taken: it leaves the channel, and its `now` draw is on the input, a port of TS_W bits (R45, R60, R142). -/
def State.afterChan (s : State) (o : ChanOffer) (rest : List ChanOffer) : State :=
  match o with
  | .byte _ now =>
    { s with inp := { s.inp with now := lowBits s.params.tsW now }, env := { s.env with chan := rest } }
  | .eof => { s with env := { s.env with chan := rest } }
  | .windowEnd => { s with env := { s.env with chan := rest } }
  | .error => { s with env := { s.env with chan := rest } }

/-- A channel event is taken. When the channel has nothing more to show, the window of the attempt expires: this is the
fairness of EXPIRE (R111, log 7). -/
def fetchChan (s : State) : Instr × State :=
  match s.env.chan with
  | [] => (.expire, s)
  | o :: rest => (o.event, s.afterChan o rest)

/-- The idle block with no command before it: the next event is the next assertion of `rst`, if there is one; otherwise there is
no event and so no step (R7). -/
def fetchLateReset (s : State) : Host.Outcome (Instr × State) Fault Refusal :=
  match s.env.rst.dropWhile (fun high => !high) with
  | [] => .refused .noEvent
  | _ :: rest => .next (.reset, { s with env := { s.env with rst := rest } })

/-- A command is taken and decoded, for this machine's TMO_W, with its `ch_ok` draw on the input (R61, R81). -/
def fetchHost (s : State) : Host.Outcome (Instr × State) Fault Refusal :=
  match s.env.host with
  | [] => fetchLateReset s
  | o :: rest =>
    .next
      (decodeCommand s.params.tmoW o.word,
        { s with inp := { s.inp with chOk := o.chOk }, env := { s.env with host := rest } })

/-- The reset line in this step: `rst` is low when its samples have run out (log 8). -/
def State.rstNow (s : State) : Bool := s.env.rst.headD false

/-- One sample of the reset line is used up in each step. -/
def State.dropRst (s : State) : State := { s with env := { s.env with rst := s.env.rst.tail } }

/-- The event of the next step and the state it runs in. RESET comes first in every state (R181). Otherwise only a command is
enabled in IDLE (R80), and only a channel event in HDR and BODY (R67); what is not enabled stays pending. -/
def fetch (s : State) : Host.Outcome (Instr × State) Fault Refusal :=
  if s.rstNow then .next (.reset, s.dropRst)
  else
    match s.phase with
    | .idle => fetchHost s.dropRst
    | .hdr => .next (fetchChan s.dropRst)
    | .body => .next (fetchChan s.dropRst)
    | .unused => .fault .illegalPhase

/-- The state as a command needs it: no attempt in progress. -/
def State.idleForCommand (s : State) : State := if s.phase = .idle then s else s.clearAttempt

/-- The state as a channel event needs it: inside an attempt. Outside one, an attempt starts as READ starts it (log 13). -/
def State.openForChannel (s : State) : State :=
  if s.phase = .hdr ∨ s.phase = .body then s else { s.startAttempt with session := .conn }

/-- The host presents the command word `w` next; its `ch_ok` draw is the value now on the input. -/
def State.offerCommand (s : State) (w : CmdWord) : State :=
  let t := s.idleForCommand
  { t with env := { t.env with host := { word := w, chOk := t.inp.chOk } :: t.env.host, rst := false :: t.env.rst } }

/-- The channel shows `o` next. -/
def State.offerChan (s : State) (o : ChanOffer) : State :=
  let t := s.openForChannel
  { t with env := { t.env with chan := o :: t.env.chan, rst := false :: t.env.rst } }

/-- The reset line is high in the next step. -/
def State.offerReset (s : State) : State := { s with env := { s.env with rst := true :: s.env.rst } }

/-- The event `i` is placed so that the next step takes it (log 13). A command is placed as its word of TMO_W + 2 bits. -/
def State.offer (s : State) (i : Instr) : State :=
  match i with
  | .cmd0 arg => s.offerCommand (cmdWord s.params.tmoW opCmd0 arg)
  | .connect arg => s.offerCommand (cmdWord s.params.tmoW opConnect arg)
  | .disconnect arg => s.offerCommand (cmdWord s.params.tmoW opDisconnect arg)
  | .read arg => s.offerCommand (cmdWord s.params.tmoW opRead arg)
  | .rx b => s.offerChan (.byte b s.inp.now)
  | .expire => s.offerChan .windowEnd
  | .ioerr => s.offerChan .error
  | .reset => s.offerReset

end Sys2Proof.Machine
end

