-- ==== Sys2Proof/Machine/Step.lean ====
section
/-!
DEFINITION. One step: the event that `fetch` takes, executed (R7: each step consumes exactly one event).
-/

namespace Sys2Proof.Machine

/-- R7, R11: one atomic step. -/
def step (s : State) : Host.Outcome State Fault Refusal :=
  match fetch s with
  | .next (i, t) => exec i t
  | .fault f => .fault f
  | .refused r => .refused r

/-- The event of the table word `w`, offered so that the very next step takes it; a word that is no event changes nothing. -/
def State.withFetchWord (s : State) (nbits w : Nat) : State :=
  match decodeTableWord nbits w with
  | some i => s.offer i
  | none => s

end Sys2Proof.Machine
end

