-- ==== Sys2Proof/Machine/Program.lean ====
section
/-!
DEFINITION. The program text of R70: the expansion of its pseudo-instructions, and loading a program into the environment.
-/

namespace Sys2Proof.Machine

/-- The bytes of a field, the high byte first (R42). -/
def be16Bytes (v : Nat) : List Byte := [BitVec.ofNat 8 (v / 256), BitVec.ofNat 8 v]

/-- The sum that a frame's checksum field holds: `(sum of bytes) mod 65536` (R70, R120). -/
def byteSum (bs : List Byte) : Nat := (bs.map BitVec.toNat).sum % 65536

/-- The bytes f10..f29 of FRAME: "The `f` bytes default to 00" (R70). -/
def fillBytes : Option (List Byte) → List Byte
  | none => List.replicate 20 0x00#8
  | some bs => bs

/-- Bytes 0 to 29 of FRAME: header, the length bytes `00 1C`, the three fields, the twenty fillers. -/
def frameHead (a b c : Nat) (fill : Option (List Byte)) : List Byte :=
  [Config.magic0, Config.magic1, 0x00#8, 0x1C#8] ++ be16Bytes a ++ be16Bytes b ++ be16Bytes c ++ fillBytes fill

/-- The bytes of FRAME (R70). -/
def frameBytes (a b c : Nat) (fill : Option (List Byte)) : List Byte :=
  frameHead a b c fill ++ be16Bytes (byteSum (frameHead a b c fill))

/-- The bytes of BADFRAME (R70): FRAME with byte 31 replaced by its bitwise complement. -/
def badFrameBytes (a b c : Nat) (fill : Option (List Byte)) : List Byte :=
  (frameBytes a b c fill).set 31 (~~~((frameBytes a b c fill).getD 31 0#8))

/-- One RX line a byte; the `@now` annotation matters only in the step that completes a frame. -/
def rxLines (bs : List Byte) (now : Timestamp) : List Line := bs.map fun b => .rx b now

/-- The basic lines that a line stands for (R70). -/
def expandLine : Line → List Line
  | .connect t ok => [.connect t ok]
  | .disconnect => [.disconnect]
  | .read => [.read]
  | .cmd0 => [.cmd0]
  | .rx b now => [.rx b now]
  | .expire => [.expire]
  | .ioerr => [.ioerr]
  | .reset => [.reset]
  | .rxs bs now => rxLines bs now
  | .frame a b c fill now => rxLines (frameBytes a b c fill) now
  | .badframe a b c fill now => rxLines (badFrameBytes a b c fill) now

/-- The command that a basic line presents, if any; `arg` is 0 where it is ignored, as 95_test_vectors.md writes it. -/
def lineCommand (tmoW : Nat) : Line → Option HostOffer
  | .connect t ok => some { word := cmdWord tmoW opConnect t, chOk := ok }
  | .disconnect => some { word := cmdWord tmoW opDisconnect 0, chOk := false }
  | .read => some { word := cmdWord tmoW opRead 0, chOk := false }
  | .cmd0 => some { word := cmdWord tmoW opCmd0 0, chOk := false }
  | .rx _ _ => none
  | .expire => none
  | .ioerr => none
  | .reset => none
  | .rxs _ _ => none
  | .frame _ _ _ _ _ => none
  | .badframe _ _ _ _ _ => none

/-- The channel event that a basic line shows, if any. -/
def lineChan : Line → Option ChanOffer
  | .connect _ _ => none
  | .disconnect => none
  | .read => none
  | .cmd0 => none
  | .rx b now => some (.byte b now)
  | .expire => some .windowEnd
  | .ioerr => some .error
  | .reset => none
  | .rxs _ _ => none
  | .frame _ _ _ _ _ => none
  | .badframe _ _ _ _ _ => none

/-- The environment of a program of R70 for a machine of the given TMO_W: its commands, its channel events and its resets, one step a basic line (log 24). -/
def programEnv (tmoW : Nat) (p : List Line) : Env :=
  let ls := p.flatMap expandLine
  { host := ls.filterMap (lineCommand tmoW), chan := ls.filterMap lineChan, rst := ls.map fun l => l == Line.reset }

/-- A program stands before the block in the given state. -/
def State.load (s : State) (p : List Line) : State := { s with env := programEnv s.params.tmoW p }

end Sys2Proof.Machine
end

