-- ==== Sys2Proof/Machine/Ports.lean ====
section
/-!
DEFINITION. The output ports, each a function of the state (R29, R60), and which window is open (R26).
-/

namespace Sys2Proof.Machine

/-- R29: the block holds the channel open. -/
def State.chOpen (s : State) : Bool := s.session == .conn

/-- R29: an attempt is in progress. -/
def State.busy (s : State) : Bool := !(s.phase == .idle)

/-- R29, R80: a command can be accepted. -/
def State.cmdReady (s : State) : Bool := s.phase == .idle

/-- R29, R45: a byte can be taken. -/
def State.rxReady (s : State) : Bool := s.phase == .hdr || s.phase == .body

/-- The Measurement of the held result, if it has one. -/
def State.lastMeas (s : State) : Option Measurement :=
  match s.last with
  | some r => r.meas
  | none => none

/-- The output ports of R60 that carry the held result. -/
inductive ResultPort where
  | status
  | pm1Raw
  | pm25Raw
  | pm10Raw
  | pm1
  | pm25
  | pm10
  | ts
  deriving DecidableEq, Repr

/-- R60: `res_meas_valid` is 1 exactly when `last.meas` is not `none`. -/
def State.resMeasValid (s : State) : Bool := s.lastMeas.isSome

/-- R60: what a result port carries, as an unsigned number. With no result `res_status` holds no value, and with no
Measurement the measurement outputs hold none. -/
def State.resultPort (s : State) : ResultPort → Option Nat
  | .status => s.last.map fun r => r.status.code.toNat
  | .pm1Raw => s.lastMeas.map fun m => m.pm1Raw.toNat
  | .pm25Raw => s.lastMeas.map fun m => m.pm25Raw.toNat
  | .pm10Raw => s.lastMeas.map fun m => m.pm10Raw.toNat
  | .pm1 => s.lastMeas.map fun m => m.pm1.toNat
  | .pm25 => s.lastMeas.map fun m => m.pm25.toNat
  | .pm10 => s.lastMeas.map fun m => m.pm10.toNat
  | .ts => s.lastMeas.map fun m => m.capturedAt

/-- I2: a host that reads a result port which holds no value reads nothing: the read faults. -/
def State.readPort (s : State) (p : ResultPort) : Except Fault Nat :=
  match s.resultPort p with
  | some v => .ok v
  | none => .error .noPortValue

/-- The window of a phase (R26, R100, R103): the header window or a fresh body window, each `tmo` TICKs long. -/
inductive Window where
  | header
  | body
  deriving DecidableEq, Repr

/-- R26, R166: which window is open. It is a function of `phase`; how much of it has passed is not modelled (log 16). -/
def State.window (s : State) : Option Window :=
  match s.phase with
  | .idle => none
  | .hdr => some .header
  | .body => some .body
  | .unused => none

end Sys2Proof.Machine
end

