-- ==== Sys2Proof/Safety.lean ====
section
/-!
DEFINITION. What a claim is stated in: the invariants of R32, R27 and R28, the bounds of R5, runs of several steps, valid frames (R120), and the
number that a binary64 pattern stands for (R66).
-/

namespace Sys2Proof.Machine

/-- `k` steps in a row, stopping at the first fault or refusal. -/
def steps : Nat → State → Out
  | 0, s => .next s
  | k + 1, s =>
    match step s with
    | .next t => steps k t
    | .fault f => .fault f
    | .refused r => .refused r

/-- The sum of slots `0..k-1` mod 2^16 (R23, R120). A slot with no value counts as 0, so a claim that uses this sum also
says which slots hold bytes. -/
def slotSum (m : Memory) : Nat → Half
  | 0 => 0#16
  | k + 1 => slotSum m k + ((Memory.slot m k).getD 0#8).setWidth 16

/-- R32: the invariants of every reachable state. `canonical` is the model's own (log 14). -/
structure State.Inv (s : State) : Prop where
  canonical : Memory.wf s.buf = true
  legalPhase : s.phase ≠ .unused
  idleCnt : s.phase = .idle → s.cnt = 0#6
  idleAcc : s.phase = .idle → s.acc = 0#16
  idleBuf : s.phase = .idle → ∀ i, Memory.slot s.buf i = none
  hdrCnt : s.phase = .hdr → s.cnt.toNat ≤ 1
  bodyCnt : s.phase = .body → 2 ≤ s.cnt.toNat ∧ s.cnt.toNat ≤ 31
  bodyMagic : s.phase = .body →
    Memory.slot s.buf 0 = some Config.magic0 ∧ Memory.slot s.buf 1 = some Config.magic1
  filled : ∀ i, (Memory.slot s.buf i).isSome = true ↔ i < s.cnt.toNat
  discIdle : s.session = .disc → s.phase = .idle
  accSum : s.acc = slotSum s.buf (min s.cnt.toNat Config.summedLen)

/-- R27, R28, R145: what a held result looks like. Its status is never DECODE_FAIL, a Measurement comes with OK only, and its
floats are the scaled raw fields. -/
structure Result.Sound (r : Result) : Prop where
  noDecodeFail : r.status ≠ .decodeFail
  measOk : r.meas ≠ none → r.status = .ok
  scaled : ∀ m, r.meas = some m →
    m.pm1 = f64Div10 m.pm1Raw ∧ m.pm25 = f64Div10 m.pm25Raw ∧ m.pm10 = f64Div10 m.pm10Raw

/-- The held result is sound, and a strobe comes with a held result in an idle block (R27, R85). -/
def State.ResultInv (s : State) : Prop :=
  (∀ r, s.last = some r → r.Sound) ∧ (s.resValid = true → s.last ≠ none ∧ s.phase = .idle)

/-- What `finish` leaves (R85): no attempt in progress, the counters 0, every slot `none`, and the result driven and held. -/
structure State.Ended (t : State) (st : Status) (m : Option Measurement) : Prop where
  phase : t.phase = .idle
  cnt : t.cnt = 0#6
  acc : t.acc = 0#16
  slots : ∀ a, Memory.slot t.buf a = none
  last : t.last = some { status := st, meas := m }
  strobe : t.resValid = true

/-- R5, R25, R28: the widths are legal, and what they bound fits: `tmo` in TMO_W bits, the `now` input and a held timestamp in
TS_W bits. -/
structure State.WidthInv (s : State) : Prop where
  legal : s.params.legal = true
  tmo : ∀ x, s.tmo = some x → fits s.params.tmoW x = true
  now : fits s.params.tsW s.inp.now = true
  held : ∀ r m, s.last = some r → r.meas = some m → fits s.params.tsW m.capturedAt = true

/-- `session` and `tmo` are as before. -/
def State.SessionKept (s t : State) : Prop := t.session = s.session ∧ t.tmo = s.tmo

/-- Nothing outside the block changed: the inputs, the environment and the widths are as before. -/
def State.OutsideKept (s t : State) : Prop := t.inp = s.inp ∧ t.env = s.env ∧ t.params = s.params

/-- Every slot reads as before. -/
def State.SlotsKept (s t : State) : Prop := ∀ a, Memory.slot t.buf a = Memory.slot s.buf a

/-- Nothing changed but the result that is driven and held (R84: "no other state changes"). -/
def State.OnlyResultChanged (s t : State) (st : Status) : Prop :=
  t = { s with last := some { status := st, meas := none }, resValid := true }

/-- The event is enabled: a command in IDLE (R80), a channel event in HDR or BODY (R67), RESET always (R181). -/
def State.Enabled (s : State) : Instr → Prop
  | .cmd0 _ => s.phase = .idle
  | .connect _ => s.phase = .idle
  | .disconnect _ => s.phase = .idle
  | .read _ => s.phase = .idle
  | .rx _ => s.phase = .hdr ∨ s.phase = .body
  | .expire => s.phase = .hdr ∨ s.phase = .body
  | .ioerr => s.phase = .hdr ∨ s.phase = .body
  | .reset => True

/-- The reset line stays low from here on. -/
def State.NoReset (s : State) : Prop := ∀ high ∈ s.env.rst, high = false

/-- The channel shows these bytes, each with its own `now` draw. -/
def byteOffers (ps : List (Byte × Timestamp)) : List ChanOffer := ps.map fun p => .byte p.1 p.2

/-- R120: a 32-byte frame is valid when the sum of bytes 0 to 29 mod 65536 is the big-endian value at bytes 30 and 31. -/
def frameValid (bs : List Byte) : Prop :=
  bs.length = Config.frameLen ∧
    ((bs.take Config.summedLen).map BitVec.toNat).sum % 65536 = (be16 (bs.getD 30 0#8) (bs.getD 31 0#8)).toNat

/-- The Measurement that R140 to R142 give for a frame and a timestamp. -/
def frameMeasurement (bs : List Byte) (now : Timestamp) : Measurement :=
  let v1 := be16 (bs.getD 4 0#8) (bs.getD 5 0#8)
  let v25 := be16 (bs.getD 6 0#8) (bs.getD 7 0#8)
  let v10 := be16 (bs.getD 8 0#8) (bs.getD 9 0#8)
  { pm1Raw := v1, pm25Raw := v25, pm10Raw := v10, pm1 := f64Div10 v1, pm25 := f64Div10 v25, pm10 := f64Div10 v10,
    capturedAt := now }

/-- The biased exponent of a binary64 pattern, bits 62:52 (R66). -/
def f64Exponent (x : F64) : Nat := (x.extractLsb' 52 11).toNat

/-- The fraction of a binary64 pattern, bits 51:0 (R66). -/
def f64Fraction (x : F64) : Nat := (x.extractLsb' 0 52).toNat

/-- Neither infinite nor NaN (R66, IEEE 754: biased exponent 2047 is kept for those). -/
def f64Finite (x : F64) : Prop := f64Exponent x ≠ 2047

/-- How many units of 2^-1074, the least positive binary64 number, make 1. -/
def f64UnitsPerOne : Int := 2 ^ 1074

/-- The magnitude of a finite binary64 pattern in units of 2^-1074: `fraction` for a subnormal, else
`(2^52 + fraction) * 2^(exponent - 1)` (R66, IEEE 754). Every finite magnitude is such a whole number. -/
def f64Units (x : F64) : Nat :=
  if f64Exponent x = 0 then f64Fraction x
  else (2 ^ 52 + f64Fraction x) * 2 ^ (f64Exponent x - 1)

/-- The signed value of a finite binary64 pattern in units of 2^-1074; bit 63 is the sign (R66). -/
def f64Value (x : F64) : Int := if x.getLsbD 63 then -(f64Units x : Int) else f64Units x

end Sys2Proof.Machine
end

