-- ==== Sys2Proof/Certificates/Slice0/Obligations.lean ====
section
/-!
DEFINITION. The statements for the provers. Each docstring names the rule of spec/ that it formalises.
-/

open Sys2Proof Sys2Proof.Machine

/-! ## Reset -/

/-- R20 to R27, R180: what each state element holds after reset, in a machine of any widths. That `State.reset` has the widths of
`Params.ofTable` is the model's choice (log 1, 2). -/
def Obligations.ResetStateHoldsResetValues : Prop :=
  State.reset = State.resetWith Params.ofTable ∧
  ∀ p : Params, (State.resetWith p).params = p ∧
    (State.resetWith p).session = .disc ∧ (State.resetWith p).phase = .idle ∧ (State.resetWith p).cnt = 0#6 ∧
    (State.resetWith p).acc = 0#16 ∧ (∀ i, Memory.slot (State.resetWith p).buf i = none) ∧
    (State.resetWith p).tmo = none ∧ (State.resetWith p).last = none ∧ (State.resetWith p).resValid = false ∧
    (State.resetWith p).window = none

/-- R180: RESET is executed in every state, even with an attempt in progress or an illegal `phase`. It writes every state
element its reset value, emits no result, and touches neither the channel nor the host. That the host's commands and the inputs
stay is read from R180 and R80 (log 25), and the fault on reading an empty port from R60 and I2 (log 21). -/
def Obligations.ResetStepClearsTheBlock : Prop :=
  ∀ s : State, ∃ t : State, exec .reset s = .next t ∧
    t.session = .disc ∧ t.chOpen = false ∧ t.phase = .idle ∧ t.cnt = 0#6 ∧ t.acc = 0#16 ∧
    (∀ a, Memory.slot t.buf a = none) ∧ t.tmo = none ∧ t.last = none ∧
    (∀ p, t.readPort p = .error .noPortValue) ∧ t.resValid = false ∧ t.window = none ∧ s.OutsideKept t

/-- R181: while `rst` is high the step is RESET, whatever the host or the channel offers, and their offers stay. That
the line is a list of samples is the model's choice (log 8); that the offers stay is read from R180 and R80 (log 25). -/
def Obligations.ResetComesFirst : Prop :=
  ∀ s : State, s.rstNow = true →
    ∃ t : State, step s = .next t ∧ exec .reset s.dropRst = .next t ∧ t.phase = .idle ∧ t.session = .disc ∧
      t.resValid = false ∧ t.env.host = s.env.host ∧ t.env.chan = s.env.chan

/-! ## The commands -/

/-- R84: op 00, whatever its `arg`, gives BAD_CMD in every session state. In a state that satisfies R32 nothing else
changes. -/
def Obligations.Cmd0GivesBadCommand : Prop :=
  (∀ (tmoW : Nat) (w : CmdWord), cmdOp tmoW w = 0b00#2 → decodeCommand tmoW w = .cmd0 (cmdArg tmoW w)) ∧
  ∀ (s : State) (arg : Ticks), s.phase = .idle →
    ∃ t : State, exec (.cmd0 arg) s = .next t ∧ t.Ended .badCmd none ∧ s.SessionKept t ∧ s.OutsideKept t ∧
      (s.Inv → s.OnlyResultChanged t .badCmd)

/-- R81: CONNECT in each of its three cases. A refused or misplaced CONNECT leaves `session` and `tmo`, and in a state that
satisfies R32 changes nothing but the result. Every `arg`, 0 among them, is legal. -/
def Obligations.ConnectOpensTheChannel : Prop :=
  (∀ (tmoW : Nat) (w : CmdWord), cmdOp tmoW w = 0b01#2 → decodeCommand tmoW w = .connect (cmdArg tmoW w)) ∧
  ∀ (s : State) (arg : Ticks), s.phase = .idle →
    (s.session = .conn →
      ∃ t : State, exec (.connect arg) s = .next t ∧ t.Ended .lifecycleError none ∧ s.SessionKept t ∧ s.OutsideKept t ∧
        (s.Inv → s.OnlyResultChanged t .lifecycleError)) ∧
    (s.session = .disc → s.inp.chOk = true →
      ∃ t : State, exec (.connect arg) s = .next t ∧ t.Ended .ok none ∧ t.session = .conn ∧ t.chOpen = true ∧
        t.tmo = some arg ∧ s.OutsideKept t) ∧
    (s.session = .disc → s.inp.chOk = false →
      ∃ t : State, exec (.connect arg) s = .next t ∧ t.Ended .connError none ∧ s.SessionKept t ∧ s.OutsideKept t ∧
        (s.Inv → s.OnlyResultChanged t .connError))

/-- R82: DISCONNECT gives OK in every session state and closes the channel; `tmo` keeps its value. A second one changes
nothing. In DISC it is a no-op apart from its result. It is not accepted while busy; the name of that refusal is the model's
choice (log 10). -/
def Obligations.DisconnectClosesTheSession : Prop :=
  (∀ (tmoW : Nat) (w : CmdWord), cmdOp tmoW w = 0b10#2 → decodeCommand tmoW w = .disconnect (cmdArg tmoW w)) ∧
  ∀ (s : State) (arg : Ticks),
    (s.phase = .idle →
      ∃ t : State, exec (.disconnect arg) s = .next t ∧ t.Ended .ok none ∧ t.session = .disc ∧ t.chOpen = false ∧
        t.tmo = s.tmo ∧ s.OutsideKept t ∧ (∀ arg' : Ticks, exec (.disconnect arg') t = .next t) ∧
        (s.Inv → s.session = .disc → s.OnlyResultChanged t .ok)) ∧
    (s.phase = .hdr ∨ s.phase = .body → exec (.disconnect arg) s = .refused .commandWhileBusy)

/-- R83: READ in CONN starts an attempt and gives no result in its step; in DISC it gives LIFECYCLE_ERROR and leaves the
channel alone. -/
def Obligations.ReadStartsAnAttempt : Prop :=
  (∀ (tmoW : Nat) (w : CmdWord), cmdOp tmoW w = 0b11#2 → decodeCommand tmoW w = .read (cmdArg tmoW w)) ∧
  ∀ (s : State) (arg : Ticks), s.phase = .idle →
    (s.session = .conn →
      ∃ t : State, exec (.read arg) s = .next t ∧ t.phase = .hdr ∧ t.cnt = 0#6 ∧ t.acc = 0#16 ∧
        (∀ a, Memory.slot t.buf a = none) ∧ t.window = some .header ∧ t.last = s.last ∧ t.resValid = false ∧
        s.SessionKept t ∧ s.OutsideKept t) ∧
    (s.session = .disc →
      ∃ t : State, exec (.read arg) s = .next t ∧ t.Ended .lifecycleError none ∧ s.SessionKept t ∧ s.OutsideKept t ∧
        (s.Inv → s.OnlyResultChanged t .lifecycleError))

/-! ## The channel events -/

/-- R101, R102: the first header byte is stored in slot `cnt`, added and counted. The second one is too when the header
matches, and the body phase opens; any other pair of bytes ends the attempt with SYNC_FAIL. -/
def Obligations.RxInHeaderPhase : Prop :=
  ∀ (s : State) (b : Byte), s.phase = .hdr →
    (s.cnt = 0#6 →
      ∃ t : State, exec (.rx b) s = .next t ∧
        (∀ a, Memory.slot t.buf a = if a = rxSlot s then some b else Memory.slot s.buf a) ∧
        t.acc = s.acc + b.setWidth 16 ∧ t.cnt = 1#6 ∧ t.phase = .hdr ∧ t.last = s.last ∧ t.resValid = false ∧
        s.SessionKept t ∧ s.OutsideKept t) ∧
    (s.cnt = 1#6 → ∀ b0 : Byte, Memory.slot s.buf 0 = some b0 →
      (b0 = 0x42#8 ∧ b = 0x4D#8 →
        ∃ t : State, exec (.rx b) s = .next t ∧
          (∀ a, Memory.slot t.buf a = if a = rxSlot s then some b else Memory.slot s.buf a) ∧
          t.acc = s.acc + b.setWidth 16 ∧ t.cnt = 2#6 ∧ t.phase = .body ∧ t.window = some .body ∧ t.last = s.last ∧
          t.resValid = false ∧ s.SessionKept t ∧ s.OutsideKept t) ∧
      (¬(b0 = 0x42#8 ∧ b = 0x4D#8) →
        ∃ t : State, exec (.rx b) s = .next t ∧ t.Ended .syncFail none ∧ s.SessionKept t ∧ s.OutsideKept t))

/-- R104 before the 32nd byte: the byte is stored in slot `cnt` and counted, and added when its index is at most 29. -/
def Obligations.RxInBodyPhase : Prop :=
  ∀ (s : State) (b : Byte), s.phase = .body → 2 ≤ s.cnt.toNat → s.cnt.toNat ≤ 30 →
    ∃ t : State, exec (.rx b) s = .next t ∧
      (∀ a, Memory.slot t.buf a = if a = rxSlot s then some b else Memory.slot s.buf a) ∧
      t.acc = (if s.cnt.toNat ≤ 29 then s.acc + b.setWidth 16 else s.acc) ∧ t.cnt.toNat = s.cnt.toNat + 1 ∧
      t.phase = .body ∧ t.last = s.last ∧ t.resValid = false ∧ s.SessionKept t ∧ s.OutsideKept t

/-- R105, R121, R125, R143: the 32nd byte completes the frame in its own step. The running sum is compared with the big-endian
field at bytes 30 and 31; equality gives OK with the Measurement, anything else CSUM_FAIL and none. The running sum is one of
the two forms of validity that R121 allows, and the model's choice (log 15). -/
def Obligations.RxCompletesTheFrame : Prop :=
  ∀ (s : State) (b : Byte) (f : Nat → Byte), s.phase = .body → s.cnt = 31#6 →
    (∀ i, i < 31 → Memory.slot s.buf i = some (f i)) →
    (s.acc = be16 (f 30) b →
      ∃ t : State, exec (.rx b) s = .next t ∧
        t.Ended .ok (some
          { pm1Raw := be16 (f 4) (f 5), pm25Raw := be16 (f 6) (f 7), pm10Raw := be16 (f 8) (f 9),
            pm1 := f64Div10 (be16 (f 4) (f 5)), pm25 := f64Div10 (be16 (f 6) (f 7)),
            pm10 := f64Div10 (be16 (f 8) (f 9)), capturedAt := s.inp.now }) ∧
        s.SessionKept t ∧ s.OutsideKept t) ∧
    (s.acc ≠ be16 (f 30) b →
      ∃ t : State, exec (.rx b) s = .next t ∧ t.Ended .csumFail none ∧ s.SessionKept t ∧ s.OutsideKept t)

/-- R106, R107: EXPIRE, from the timer or from `rx_eof`, ends an attempt with SYNC_FAIL in either phase, however many bytes are
in. -/
def Obligations.ExpireEndsTheAttempt : Prop :=
  ChanOffer.windowEnd.event = .expire ∧ ChanOffer.eof.event = .expire ∧
  ∀ s : State, s.phase = .hdr ∨ s.phase = .body →
    ∃ t : State, exec .expire s = .next t ∧ t.Ended .syncFail none ∧ s.SessionKept t ∧ s.OutsideKept t

/-- R108: IOERR ends an attempt with IO_ERROR in either phase and leaves the session. It has no step while IDLE; the name of that
refusal is the model's choice (log 10). -/
def Obligations.IoerrEndsTheAttempt : Prop :=
  ChanOffer.error.event = .ioerr ∧
  ∀ s : State,
    (s.phase = .hdr ∨ s.phase = .body →
      ∃ t : State, exec .ioerr s = .next t ∧ t.Ended .ioError none ∧ s.SessionKept t ∧ s.OutsideKept t) ∧
    (s.phase = .idle → exec .ioerr s = .refused .channelEventWhileIdle)

/-! ## Which events have a step -/

/-- R67, R80: a command has no step while an attempt is in progress, and a channel event none while IDLE. The
refusals' names are the model's choice (log 10). -/
def Obligations.DisabledEventsHaveNoStep : Prop :=
  ∀ (s : State) (arg : Ticks) (b : Byte),
    (s.phase = .hdr ∨ s.phase = .body →
      exec (.cmd0 arg) s = .refused .commandWhileBusy ∧ exec (.connect arg) s = .refused .commandWhileBusy ∧
      exec (.disconnect arg) s = .refused .commandWhileBusy ∧ exec (.read arg) s = .refused .commandWhileBusy) ∧
    (s.phase = .idle →
      exec (.rx b) s = .refused .channelEventWhileIdle ∧ exec .expire s = .refused .channelEventWhileIdle ∧
      exec .ioerr s = .refused .channelEventWhileIdle)

/-- R32, R67, R80, R181: in a state that satisfies R32, its buffer canonical (log 14, the model's choice), every enabled event is
executed. -/
def Obligations.EnabledEventsComplete : Prop :=
  ∀ (s : State) (i : Instr), s.Inv → s.Enabled i → ∃ t : State, exec i s = .next t

/-- R21, I6: the value 3 of `phase` is never written, from whatever state. That a state which holds it faults as `illegalPhase` on
every event but RESET, and in a step with `rst` low, is the model's reading of "a model that reaches it faults" (log 11,
DEDUCED). RESET is enabled in every state (R181). -/
def Obligations.UnusedPhaseFaults : Prop :=
  (∀ (s t : State) (i : Instr), exec i s = .next t → t.phase ≠ .unused) ∧
  (∀ (s : State) (i : Instr), s.phase = .unused → i ≠ .reset → exec i s = .fault .illegalPhase) ∧
  ∀ s : State, s.phase = .unused → s.rstNow = false → step s = .fault .illegalPhase

/-! ## Steps -/

/-- R7, R61, R80: in IDLE with `rst` low, the step decodes the command word that the host presents, for the machine's own TMO_W,
and runs it, with the
offer's `ch_ok` on the input and the offer gone. The lists of offers and samples are the model's choice (log 4, 5, 8). -/
def Obligations.StepRunsTheCommand : Prop :=
  ∀ (s : State) (o : HostOffer) (rest : List HostOffer), s.phase = .idle → s.rstNow = false → s.env.host = o :: rest →
    step s = exec (decodeCommand s.params.tmoW o.word)
      { s with inp := { s.inp with chOk := o.chOk },
               env := { host := rest, chan := s.env.chan, rst := s.env.rst.tail } }

/-- R7, R45, R67: in an attempt with `rst` low, the step runs the event that the channel shows, which leaves the channel; a byte
puts its `now` on the input, a port of TS_W bits (R60). The lists of offers and samples are the model's choice (log 4, 6, 8). -/
def Obligations.StepRunsTheChannelEvent : Prop :=
  ∀ (s : State) (o : ChanOffer) (rest : List ChanOffer), s.phase = .hdr ∨ s.phase = .body → s.rstNow = false →
    s.env.chan = o :: rest →
    (∀ b now, o = .byte b now →
      step s = exec (.rx b)
        { s with inp := { s.inp with now := lowBits s.params.tsW now },
                 env := { host := s.env.host, chan := rest, rst := s.env.rst.tail } }) ∧
    (o = .windowEnd ∨ o = .eof →
      step s = exec .expire { s with env := { host := s.env.host, chan := rest, rst := s.env.rst.tail } }) ∧
    (o = .error →
      step s = exec .ioerr { s with env := { host := s.env.host, chan := rest, rst := s.env.rst.tail } })

/-- The model's choice (log 7, 9), resting on R111 and R7. An attempt whose channel has nothing more to show
expires. An idle block with no command before it takes the next assertion of `rst`, and with none has no step. -/
def Obligations.StepWithoutOffer : Prop :=
  ∀ s : State, s.rstNow = false →
    (s.phase = .hdr ∨ s.phase = .body → s.env.chan = [] → step s = exec .expire s.dropRst) ∧
    (s.phase = .idle → s.env.host = [] →
      (s.NoReset → step s = .refused .noEvent) ∧
      ∀ (n : Nat) (rest : List Bool), s.env.rst = List.replicate n false ++ true :: rest →
        step s = exec .reset { s with env := { s.env with rst := rest } })

/-- The model's choice (log 13): a table word that decodes is run by the very next step, in a machine of the table's TMO_W or of
any whose `arg` holds the word's. Where its event is enabled and the `now` input has TS_W bits, it runs in exactly the state it
was placed in. -/
def Obligations.PlacedWordRunsNext : Prop :=
  ∀ (s : State) (nbits w : Nat) (i : Instr), decodeTableWord nbits w = some i →
    s.params.tmoW = Config.tableTmoW ∨ i.wellFormed s.params.tmoW = true →
    ∃ u : State, step (s.withFetchWord nbits w) = exec i u ∧ u.Enabled i ∧
      (s.Enabled i → fits s.params.tsW s.inp.now = true → u = s)

/-- R46, R80, R184: in one step the host's commands stay as they are or lose their first, in IDLE only; the channel's events
stay or lose their first, in an attempt only. Nothing is lost, reordered or taken twice. The lists are the
model's choice (log 5, 6). -/
def Obligations.OffersAreTakenInOrder : Prop :=
  ∀ s t : State, step s = .next t →
    (t.env.host = s.env.host ∨ (s.cmdReady = true ∧ ∃ o, s.env.host = o :: t.env.host)) ∧
    (t.env.chan = s.env.chan ∨ (s.rxReady = true ∧ ∃ o, s.env.chan = o :: t.env.chan))

/-! ## Encoding -/

/-- The words of spec/opcode_table.json and of the programs of 95_test_vectors.md section 3, and a byte, decode to what they stand
for; so do command words of R61 for a TMO_W of 8 and of 1. The lines above bit 17 are the model's choice (log 12). -/
def Obligations.WrittenWordsDecode : Prop :=
  decodeTableWord 24 0x103E8 = some (.connect 1000) ∧ decodeTableWord 24 0x20000 = some (.disconnect 0) ∧
  decodeTableWord 24 0x30000 = some (.read 0) ∧ decodeTableWord 24 0x00000 = some (.cmd0 0) ∧
  decodeTableWord 8 0x42 = some (.rx 0x42#8) ∧ decodeTableWord 24 0x040042 = some (.rx 0x42#8) ∧
  decodeTableWord 24 0x080000 = some .expire ∧ decodeTableWord 24 0x100000 = some .ioerr ∧
  decodeTableWord 24 0x200000 = some .reset ∧ decodeTableWord 24 0x0C0000 = none ∧
  decodeCommand 8 0b01_00110010 = .connect 50 ∧ decodeCommand 1 0b10_1 = .disconnect 1

/-- R61 to R63, R67, with the model's event words (log 12): for every TMO_W, decoding what was encoded gives the event back, with
every operand at every value, and leaves the bytes after it. -/
def Obligations.DecodeAfterEncode : Prop :=
  ∀ (tmoW : Nat) (i : Instr) (rest : List Byte), i.wellFormed tmoW = true →
    decode tmoW (encode tmoW i ++ rest) = .ok (i, rest)

/-- R61, R62, for every TMO_W: every command word is the encoding of the command it decodes to. That CMD0, DISCONNECT and READ
keep the `arg` they ignore, so that no bit is lost, is the model's choice (log 26). With the model's event words (log 12) the
same holds of every word that decodes, but for EXPIRE, which the timer and `rx_eof` both give. -/
def Obligations.EncodeAfterDecode : Prop :=
  (∀ (tmoW : Nat) (w : CmdWord), w < 2 ^ (tmoW + 2) → encodeCommand tmoW (decodeCommand tmoW w) = some w) ∧
  ∀ (tmoW w : Nat) (i : Instr), decodeWord tmoW w = .ok i → i ≠ .expire → encodeWord tmoW i = w

/-- R20, R21, R64, R65: the codes of `session` and `phase`, the status codes, and their class bit. -/
def Obligations.StatusAndStateCodes : Prop :=
  Session.disc.code = 0#1 ∧ Session.conn.code = 1#1 ∧
  Phase.idle.code = 0#2 ∧ Phase.hdr.code = 1#2 ∧ Phase.body.code = 2#2 ∧ Phase.unused.code = 3#2 ∧
  Status.ok.code = 0#3 ∧ Status.syncFail.code = 1#3 ∧ Status.csumFail.code = 2#3 ∧ Status.decodeFail.code = 3#3 ∧
  Status.connError.code = 4#3 ∧ Status.lifecycleError.code = 5#3 ∧ Status.ioError.code = 6#3 ∧ Status.badCmd.code = 7#3 ∧
  ∀ st : Status, st.raised = true ↔ st = .connError ∨ st = .lifecycleError ∨ st = .ioError ∨ st = .badCmd

/-- R29, R60: the outputs. The fault on reading an output that holds no value is the model's reading of R60 and I2 (log 21). -/
def Obligations.OutputsFollowTheState : Prop :=
  ∀ s : State,
    (s.chOpen = true ↔ s.session = .conn) ∧ (s.busy = true ↔ s.phase ≠ .idle) ∧ (s.cmdReady = true ↔ s.phase = .idle) ∧
    (s.rxReady = true ↔ s.phase = .hdr ∨ s.phase = .body) ∧
    (s.last = none → s.resMeasValid = false ∧ ∀ p, s.readPort p = .error .noPortValue) ∧
    (∀ st, s.last = some { status := st, meas := none } →
      s.resMeasValid = false ∧ s.readPort .status = .ok st.code.toNat ∧
        ∀ p, p ≠ .status → s.readPort p = .error .noPortValue) ∧
    ∀ st m, s.last = some { status := st, meas := some m } →
      s.resMeasValid = true ∧ s.readPort .status = .ok st.code.toNat ∧
      s.readPort .pm1Raw = .ok m.pm1Raw.toNat ∧ s.readPort .pm25Raw = .ok m.pm25Raw.toNat ∧
      s.readPort .pm10Raw = .ok m.pm10Raw.toNat ∧ s.readPort .pm1 = .ok m.pm1.toNat ∧ s.readPort .pm25 = .ok m.pm25.toNat ∧
      s.readPort .pm10 = .ok m.pm10.toNat ∧ s.readPort .ts = .ok m.capturedAt

/-- R9: `be16` of two bytes as a number, and of two slots, the byte at the lower index the more significant. -/
def Obligations.BigEndianPairs : Prop :=
  (∀ hi lo : Byte, (be16 hi lo).toNat = hi.toNat * 256 + lo.toNat) ∧
  ∀ (m : Memory) (i : Nat) (hi lo : Byte), Memory.slot m i = some hi → Memory.slot m (i + 1) = some lo →
    be16At m i = .ok (be16 hi lo)

/-! ## Invariants -/

/-- R32 holds after reset, whatever the widths and the environment, and so do R27 and R28 of the held result; with legal widths (R5)
and a `now` input that fits its port (R60), so do the bounds of R5. That the widths stand in the state, and the legal ones of
`Params.ofTable`, are the model's choice (log 1, 2), as is the buffer's canonical form (log 14). -/
def Obligations.ResetStateSatisfiesInvariants : Prop :=
  Params.ofTable.legal = true ∧
  ∀ (p : Params) (e : Env) (x : Inputs),
    ({ State.resetWith p with env := e, inp := x } : State).Inv ∧
    ({ State.resetWith p with env := e, inp := x } : State).ResultInv ∧
    (p.legal = true → fits p.tsW x.now = true → ({ State.resetWith p with env := e, inp := x } : State).WidthInv)

/-- R32 is kept by every step, from every state that satisfies it. The buffer's canonical form in it is the model's choice
(log 14). -/
def Obligations.StepKeepsInvariant : Prop :=
  ∀ s t : State, s.Inv → step s = .next t → t.Inv

/-- R27, R28, R145: every step leaves a held result sound: never DECODE_FAIL, a Measurement with OK only, its floats the
scaled raw fields; and the strobe, which as a bit of the state is the model's choice (log 18), comes with a held result in an idle
block. -/
def Obligations.StepKeepsResultSound : Prop :=
  ∀ s t : State, s.ResultInv → step s = .next t → t.ResultInv

/-- R5, R25, R28, R60: no step changes the widths of the machine, and every step keeps what they bound: `tmo` in TMO_W bits, the
`now` input and a held timestamp in TS_W bits. That the widths stand in the state is the model's choice (log 1, 2). -/
def Obligations.StepKeepsWidths : Prop :=
  ∀ s t : State, step s = .next t → t.params = s.params ∧ (s.WidthInv → t.WidthInv)

/-- The frame buffer keeps its canonical form (log 14) in every step, in states outside R32 too. -/
def Obligations.StepKeepsBufferCanonical : Prop :=
  ∀ s t : State, Memory.wf s.buf = true → step s = .next t → Memory.wf t.buf = true

/-- R32, which the spec marks as derived: every state that a run from reset reaches, in a machine of any widths and under any
environment, satisfies the invariants; and no such run faults, so no rule reads a slot that holds `none`. The buffer's canonical
form in them is the model's own (log 14). -/
def Obligations.ReachableStatesSatisfyInvariants : Prop :=
  ∀ (p : Params) (e : Env) (x : Inputs) (k : Nat),
    (∀ f : Fault, steps k { State.resetWith p with env := e, inp := x } ≠ .fault f) ∧
    ∀ t : State, steps k { State.resetWith p with env := e, inp := x } = .next t →
      t.Inv ∧ t.ResultInv ∧ t.params = p ∧ (p.legal = true → fits p.tsW x.now = true → t.WidthInv)

/-! ## Whole-machine rules -/

/-- R24, R40: a byte enters the frame buffer only by an RX, and only in slot `cnt`; every other byte a slot holds was there
before. -/
def Obligations.BytesEnterOnlyByRx : Prop :=
  ∀ (s t : State) (i : Instr), exec i s = .next t → ∀ (a : Nat) (v : Byte), Memory.slot t.buf a = some v →
    Memory.slot s.buf a = some v ∨ (a = rxSlot s ∧ i = .rx v)

/-- R20, R25: `session` is written by CONNECT, DISCONNECT and RESET only; `tmo` by a CONNECT that succeeds, which copies `arg`,
and by RESET only. -/
def Obligations.SessionAndTimeoutWriters : Prop :=
  ∀ (s t : State) (i : Instr), exec i s = .next t →
    (t.session ≠ s.session → (∃ arg, i = .connect arg) ∨ (∃ arg, i = .disconnect arg) ∨ i = .reset) ∧
    (t.tmo ≠ s.tmo →
      (∃ arg, i = .connect arg ∧ s.session = .disc ∧ s.inp.chOk = true ∧ t.tmo = some arg) ∨ (i = .reset ∧ t.tmo = none))

/-- R27, R85, R143, R163: a step with the strobe high is a completion, and leaves no attempt in progress; a step with the
strobe low leaves the held result, unless it is RESET. Only an RX produces a Measurement, and only with OK. The strobe as a bit of
the state is the model's choice (log 18). -/
def Obligations.ResultsComeFromCompletion : Prop :=
  ∀ (s t : State) (i : Instr), exec i s = .next t →
    (t.resValid = true → ∃ st m, t.Ended st m ∧ (m ≠ none → st = .ok ∧ s.phase = .body ∧ ∃ b, i = .rx b)) ∧
    (t.resValid = false → t.last = s.last ∨ (i = .reset ∧ t.last = none))

/-- R124: within an attempt, OK and CSUM_FAIL are given only by the RX that takes the 32nd byte; a shorter attempt never
ends so. -/
def Obligations.ShortAttemptsAreNotValidated : Prop :=
  ∀ (s t : State) (i : Instr) (r : Result), s.phase = .hdr ∨ s.phase = .body → exec i s = .next t → t.resValid = true →
    t.last = some r → r.status = .ok ∨ r.status = .csumFail →
    s.phase = .body ∧ s.cnt = 31#6 ∧ ∃ b, i = .rx b

/-- R142: a step that produces no Measurement does the same whatever `now` is. -/
def Obligations.NowMattersOnlyToAMeasurement : Prop :=
  ∀ (s t : State) (i : Instr) (now : Timestamp), exec i s = .next t →
    (t.resValid = true → t.lastMeas = none) →
    exec i { s with inp := { s.inp with now := now } } = .next { t with inp := { t.inp with now := now } }

/-- R25: no event reads `tmo`: with another value in it every event does the same to the rest of the state. -/
def Obligations.TimeoutIsNotRead : Prop :=
  ∀ (s t : State) (i : Instr) (x : Option Ticks), exec i s = .next t →
    ∃ t' : State, exec i { s with tmo := x } = .next t' ∧ { t' with tmo := t.tmo } = t

/-- R5: "None of these parameters changes a rule of the untimed model": a machine of other widths does the same on every event. -/
def Obligations.WidthsChangeNoRule : Prop :=
  ∀ (s t : State) (i : Instr) (p : Params), exec i s = .next t →
    exec i { s with params := p } = .next { t with params := p }

/-! ## Checksum and decoding -/

/-- R120, R121, R125, R143: in a state that satisfies R32, the 32nd byte gives OK exactly when the 32 bytes taken are a valid frame
(the sum of bytes 0 to 29 mod 65536 is the big-endian field at 30 and 31), with the Measurement of those bytes; else CSUM_FAIL. -/
def Obligations.CompletionChecksTheFrame : Prop :=
  ∀ (s : State) (bs : List Byte) (b : Byte), s.Inv → s.phase = .body → bs.length = 31 →
    (∀ i, i < 31 → Memory.slot s.buf i = some (bs.getD i 0#8)) →
    ∃ t : State, exec (.rx b) s = .next t ∧ s.SessionKept t ∧ s.OutsideKept t ∧
      ((frameValid (bs ++ [b]) ∧ t.Ended .ok (some (frameMeasurement (bs ++ [b]) s.inp.now))) ∨
       (¬frameValid (bs ++ [b]) ∧ t.Ended .csumFail none))

/-- R123: in a state that satisfies R32, the sum at the 32nd byte lies between 0x008F and 0x1C73, and a checksum field outside that
range gives CSUM_FAIL. -/
def Obligations.ChecksumRange : Prop :=
  ∀ s : State, s.Inv → s.phase = .body → s.cnt = 31#6 →
    0x008F ≤ s.acc.toNat ∧ s.acc.toNat ≤ 0x1C73 ∧
    ∀ hi lo : Byte, Memory.slot s.buf 30 = some hi → (be16 hi lo).toNat < 0x008F ∨ 0x1C73 < (be16 hi lo).toNat →
      ∃ t : State, exec (.rx lo) s = .next t ∧ t.Ended .csumFail none

/-- R125: a valid frame with one byte changed to another value is not valid, whichever byte it is. -/
def Obligations.OneChangedByteIsCaught : Prop :=
  ∀ (bs : List Byte) (i : Nat) (v : Byte), frameValid bs → i < 32 → v ≠ bs.getD i 0#8 → ¬frameValid (bs.set i v)

/-- R144: two attempts that agree on bytes 4 to 9 and on `now` and both end OK give the same Measurement, whatever their other
bytes are. -/
def Obligations.UndecodedBytesDoNotMatter : Prop :=
  ∀ (s s' t t' : State) (b b' : Byte), s.phase = .body → s'.phase = .body → s.cnt = 31#6 → s'.cnt = 31#6 →
    (∀ a, 4 ≤ a → a ≤ 9 → Memory.slot s.buf a = Memory.slot s'.buf a) → s.inp.now = s'.inp.now →
    exec (.rx b) s = .next t → exec (.rx b') s' = .next t' → t.resMeasValid = true → t'.resMeasValid = true →
    t.last = t'.last

/-- R141: the scaler's result is finite, and no finite binary64 number is nearer to `v / 10`. Values are counted in units of
2^-1074, of which every finite binary64 number is a whole multiple (IEEE 754, log 17). -/
def Obligations.ScalerGivesTheNearestFloat : Prop :=
  ∀ v : Half, f64Finite (f64Div10 v) ∧
    ∀ x : F64, f64Finite x →
      |10 * f64Value (f64Div10 v) - (v.toNat : Int) * f64UnitsPerOne| ≤ |10 * f64Value x - (v.toNat : Int) * f64UnitsPerOne|

/-- R141, the properties of the result: +0.0 for 0; the sign bit clear; a normal number for `v ≥ 1`; exact exactly when
`v mod 5 == 0`; the integer nearest to 10 times it is `v`; strictly increasing; and its maximum. The sign, the exponent and the
value of a pattern are read by the binary64 layout (R66, IEEE 754, log 17, PRESUMED). -/
def Obligations.ScalerProperties : Prop :=
  f64Div10 0#16 = 0#64 ∧ f64Div10 65535#16 = 0x40B9998000000000#64 ∧
  (∀ v : Half, (f64Div10 v).getLsbD 63 = false ∧ (v ≠ 0#16 → f64Exponent (f64Div10 v) ≠ 0) ∧
    (10 * f64Value (f64Div10 v) = (v.toNat : Int) * f64UnitsPerOne ↔ v.toNat % 5 = 0) ∧
    2 * |10 * f64Value (f64Div10 v) - (v.toNat : Int) * f64UnitsPerOne| < f64UnitsPerOne) ∧
  ∀ v w : Half, v.toNat < w.toNat → f64Value (f64Div10 v) < f64Value (f64Div10 w)

/-! ## Attempts -/

/-- R101 to R105, R120, R142, R143: an attempt that takes 32 bytes beginning with the magic header ends with the 32nd. A valid frame
gives OK with its Measurement, any other CSUM_FAIL. Each byte `(b, now)` comes with its own `now` draw, and `captured_at` is the
draw of the 32nd byte's step, whatever the draws before it were. That what follows in the list of channel events stays there, ends
of windows too, is the model's choice (log 6). -/
def Obligations.FrameOfThirtyTwoBytesIsJudged : Prop :=
  ∀ (s : State) (ps : List (Byte × Timestamp)) (bs : List Byte) (b : Byte) (now : Timestamp) (rest : List ChanOffer),
    s.Inv → s.phase = .hdr → s.cnt = 0#6 → s.NoReset → ps.length = 31 → bs = ps.map Prod.fst ++ [b] →
    bs.getD 0 0#8 = 0x42#8 → bs.getD 1 0#8 = 0x4D#8 → s.env.chan = byteOffers (ps ++ [(b, now)]) ++ rest →
    ∃ t : State, steps 32 s = .next t ∧ s.SessionKept t ∧ t.env.host = s.env.host ∧ t.env.chan = rest ∧
      ((frameValid bs ∧ t.Ended .ok (some (frameMeasurement bs (lowBits s.params.tsW now)))) ∨
       (¬frameValid bs ∧ t.Ended .csumFail none))

/-- R100, R109: an attempt whose first two bytes are not the header takes exactly those two, even when the first is already wrong, and
ends with SYNC_FAIL; the next attempt starts at the byte after them. That what follows in the list of channel events stays there,
ends of windows too, is the model's choice (log 6). -/
def Obligations.BadHeaderTakesTwoBytes : Prop :=
  ∀ (s : State) (b0 b1 : Byte) (now0 now1 : Timestamp) (rest : List ChanOffer), s.Inv → s.phase = .hdr → s.cnt = 0#6 →
    s.NoReset → s.env.chan = .byte b0 now0 :: .byte b1 now1 :: rest → ¬(b0 = 0x42#8 ∧ b1 = 0x4D#8) →
    ∃ t u : State, steps 1 s = .next u ∧ u.phase = .hdr ∧ u.resValid = false ∧
      steps 2 s = .next t ∧ t.Ended .syncFail none ∧ s.SessionKept t ∧ t.env.host = s.env.host ∧ t.env.chan = rest

/-- R186: while the channel shows bytes only, whatever the draws they come with, an attempt takes exactly 2 of them or exactly 32, so
the offset at which the next attempt starts keeps its parity. That what follows those bytes in the list of channel events stays
there, ends of windows too, is the model's choice (log 6). -/
def Obligations.AttemptsTakeTwoBytesOrThirtyTwo : Prop :=
  ∀ (s : State) (ps : List (Byte × Timestamp)) (rest : List ChanOffer), s.Inv → s.phase = .hdr → s.cnt = 0#6 →
    s.NoReset → ps.length = 32 → s.env.chan = byteOffers ps ++ rest →
    ∃ (k : Nat) (t : State),
      k = (if (ps.map Prod.fst).getD 0 0#8 = 0x42#8 ∧ (ps.map Prod.fst).getD 1 0#8 = 0x4D#8 then 32 else 2) ∧
      steps k s = .next t ∧ t.phase = .idle ∧ t.resValid = true ∧ t.env.chan = byteOffers (ps.drop k) ++ rest

/-- R112: the 32nd byte and the end of the window may come in either order. The byte first gives OK or CSUM_FAIL; the window first
gives SYNC_FAIL, and the byte stays in the channel. That with the byte first the window's end stays first in the list is the
model's choice and no rule: the list holds the events that the attempts will meet, and one left over is met by the next attempt
(log 6). -/
def Obligations.WindowRaceHasBothOutcomes : Prop :=
  ∀ (s : State) (b : Byte) (now : Timestamp) (rest : List ChanOffer), s.Inv → s.phase = .body → s.cnt = 31#6 →
    s.NoReset →
    (s.env.chan = .byte b now :: .windowEnd :: rest →
      ∃ (t : State) (m : Option Measurement), step s = .next t ∧ (t.Ended .ok m ∨ t.Ended .csumFail m) ∧
        t.env.chan = .windowEnd :: rest) ∧
    (s.env.chan = .windowEnd :: .byte b now :: rest →
      ∃ t : State, step s = .next t ∧ t.Ended .syncFail none ∧ t.env.chan = .byte b now :: rest)

/-- R46, R87, R111: with `rst` low every attempt ends with exactly one result, after at most the steps that the channel's events and the
32 bytes of a frame allow; it takes consecutive events of the channel, at most 32, and no command meanwhile. It rests on
log 7 (the fairness of EXPIRE) and speaks of the list of channel events, the model's choice (log 6). -/
def Obligations.EveryAttemptEnds : Prop :=
  ∀ s : State, s.Inv → s.phase = .hdr ∨ s.phase = .body → s.NoReset →
    ∃ (k : Nat) (t : State) (taken : List ChanOffer), 1 ≤ k ∧ k ≤ s.env.chan.length + 1 ∧ k ≤ 32 - s.cnt.toNat ∧
      steps k s = .next t ∧ t.phase = .idle ∧ t.resValid = true ∧ s.SessionKept t ∧ t.env.host = s.env.host ∧
      s.env.chan = taken ++ t.env.chan ∧ taken.length ≤ k ∧
      ∀ (j : Nat) (u : State), 0 < j → j < k → steps j s = .next u → u.resValid = false ∧ u.phase ≠ .idle

/-- R86: with `rst` low every command that is accepted leads to exactly one result, and the next command is taken only after it. It rests
on log 7 for READ. -/
def Obligations.EveryCommandGetsOneResult : Prop :=
  ∀ (s : State) (o : HostOffer) (rest : List HostOffer), s.Inv → s.phase = .idle → s.NoReset → s.env.host = o :: rest →
    ∃ (k : Nat) (t : State), 1 ≤ k ∧ k ≤ 33 ∧ steps k s = .next t ∧ t.phase = .idle ∧ t.resValid = true ∧
      t.env.host = rest ∧
      ∀ (j : Nat) (u : State), 0 < j → j < k → steps j s = .next u → u.resValid = false ∧ u.env.host = rest

/-! ## The program text -/

/-- R70: FRAME stands for the RX lines of a valid 32-byte frame with the header, the length bytes 00 1C, its three operands as raw
fields and its `f` bytes, 00 where they are not written. BADFRAME stands for the same bytes with byte 31 replaced by its bitwise
complement, which are not a valid frame. That every line carries the `@now` is the model's choice (log 24). -/
def Obligations.FrameLinesExpand : Prop :=
  ∀ (p : Params) (a b c : Nat) (fill : Option (List Byte)) (now : Timestamp),
    (Line.frame a b c fill now).wellFormed p = true →
    expandLine (.frame a b c fill now) = (frameBytes a b c fill).map (fun x => Line.rx x now) ∧
    frameValid (frameBytes a b c fill) ∧ (frameBytes a b c fill).take 4 = [0x42#8, 0x4D#8, 0x00#8, 0x1C#8] ∧
    (frameMeasurement (frameBytes a b c fill) now).pm1Raw.toNat = a ∧
    (frameMeasurement (frameBytes a b c fill) now).pm25Raw.toNat = b ∧
    (frameMeasurement (frameBytes a b c fill) now).pm10Raw.toNat = c ∧
    (∀ bs, fill = some bs → ((frameBytes a b c fill).drop 10).take 20 = bs) ∧
    (fill = none → ((frameBytes a b c fill).drop 10).take 20 = List.replicate 20 0x00#8) ∧
    expandLine (.badframe a b c fill now) = (badFrameBytes a b c fill).map (fun x => Line.rx x now) ∧
    (badFrameBytes a b c fill).length = 32 ∧ (badFrameBytes a b c fill).take 31 = (frameBytes a b c fill).take 31 ∧
    (badFrameBytes a b c fill).getD 31 0#8 = ~~~((frameBytes a b c fill).getD 31 0#8) ∧
    ¬frameValid (badFrameBytes a b c fill)
end

