-- ==== Sys2Proof/Laws/Decode.lean ====
section
/-!
SUPPORT. The fields of a command word and of an event word, for any TMO_W: what each field reads as, and how large each word is.
-/

namespace Sys2Proof

theorem fits_iff {w v : Nat} : fits w v = true ↔ v < 2 ^ w := by simp [fits]

theorem lowBits_lt (w v : Nat) : lowBits w v < 2 ^ w := Nat.mod_lt _ (Nat.two_pow_pos w)

@[simp] theorem fits_lowBits (w v : Nat) : fits w (lowBits w v) = true := fits_iff.mpr (lowBits_lt w v)

theorem lowBits_of_fits {w v : Nat} (h : fits w v = true) : lowBits w v = v := Nat.mod_eq_of_lt (fits_iff.mp h)

@[simp] theorem lowBits_lowBits (w v : Nat) : lowBits w (lowBits w v) = lowBits w v := lowBits_of_fits (fits_lowBits w v)

/-! ## A field above `w` low bits -/

/-- The low bits of a number that has `lo` in its low `w` bits. -/
theorem lowBits_append {w hi lo : Nat} (h : lo < 2 ^ w) : lowBits w (hi * 2 ^ w + lo) = lo := by
  unfold lowBits
  rw [Nat.add_comm, Nat.add_mul_mod_self_right, Nat.mod_eq_of_lt h]

/-- The rest of such a number. -/
theorem div_append {w hi lo : Nat} (h : lo < 2 ^ w) : (hi * 2 ^ w + lo) / 2 ^ w = hi := by
  rw [Nat.add_comm, Nat.add_mul_div_right _ _ (Nat.two_pow_pos w), Nat.div_eq_of_lt h, Nat.zero_add]

/-- The size of such a number. -/
theorem append_lt {w n hi lo : Nat} (hhi : hi < 2 ^ n) (hlo : lo < 2 ^ w) : hi * 2 ^ w + lo < 2 ^ (w + n) := by
  calc hi * 2 ^ w + lo < (hi + 1) * 2 ^ w := by rw [Nat.succ_mul]; omega
    _ ≤ 2 ^ n * 2 ^ w := Nat.mul_le_mul_right _ hhi
    _ = 2 ^ (w + n) := by rw [Nat.pow_add, Nat.mul_comm]

/-! ## Command words (R61) -/

@[simp] theorem cmdOp_cmdWord (tmoW : Nat) (op : Op) (arg : Ticks) : cmdOp tmoW (cmdWord tmoW op arg) = op := by
  unfold cmdOp cmdWord
  rw [div_append (lowBits_lt _ _), BitVec.ofNat_toNat, BitVec.setWidth_eq]

@[simp] theorem cmdArg_cmdWord (tmoW : Nat) (op : Op) (arg : Ticks) :
    cmdArg tmoW (cmdWord tmoW op arg) = lowBits tmoW arg := lowBits_append (lowBits_lt _ _)

theorem cmdWord_lt (tmoW : Nat) (op : Op) (arg : Ticks) : cmdWord tmoW op arg < 2 ^ (tmoW + 2) :=
  append_lt op.isLt (lowBits_lt _ _)

/-- A command word is the concatenation of its fields. -/
theorem cmdWord_fields {tmoW : Nat} {w : CmdWord} (h : w < 2 ^ (tmoW + 2)) :
    cmdWord tmoW (cmdOp tmoW w) (cmdArg tmoW w) = w := by
  have hd : w / 2 ^ tmoW < 2 ^ 2 := Nat.div_lt_of_lt_mul (by rwa [← Nat.pow_add])
  unfold cmdWord cmdOp cmdArg
  rw [lowBits_lowBits, BitVec.toNat_ofNat, Nat.mod_eq_of_lt hd, Nat.mul_comm]
  exact Nat.div_add_mod w (2 ^ tmoW)

/-- The `arg` of a decoded command has TMO_W bits. -/
theorem decodeCommand_wellFormed (tmoW : Nat) (w : CmdWord) : (decodeCommand tmoW w).wellFormed tmoW = true := by
  unfold decodeCommand
  split_ifs <;> exact fits_lowBits _ _

/-- The four commands, by `op`. -/
theorem decodeCommand_cmdWord (tmoW : Nat) (op : Op) (arg : Ticks) :
    decodeCommand tmoW (cmdWord tmoW op arg) =
      if op = opCmd0 then .cmd0 (lowBits tmoW arg)
      else if op = opConnect then .connect (lowBits tmoW arg)
      else if op = opDisconnect then .disconnect (lowBits tmoW arg)
      else .read (lowBits tmoW arg) := by
  unfold decodeCommand
  rw [cmdOp_cmdWord, cmdArg_cmdWord]

/-! ## Event words (log 12) -/

theorem cmdWord_lt_payload (tmoW : Nat) (op : Op) (arg : Ticks) : cmdWord tmoW op arg < 2 ^ payloadWidth tmoW :=
  (cmdWord_lt tmoW op arg).trans_le (Nat.pow_le_pow_right (by decide) (Nat.le_max_left _ _))

theorem byte_lt_payload (tmoW : Nat) (b : Byte) : b.toNat < 2 ^ payloadWidth tmoW :=
  b.isLt.trans_le (Nat.pow_le_pow_right (by decide) (Nat.le_max_right _ _))

theorem eventPayload_eventWord {tmoW p : Nat} (ls : BitVec 5) (h : p < 2 ^ payloadWidth tmoW) :
    eventPayload tmoW (eventWord tmoW ls p) = p := lowBits_append h

theorem eventLines_eventWord {tmoW p : Nat} (ls : BitVec 5) (h : p < 2 ^ payloadWidth tmoW) :
    eventLines tmoW (eventWord tmoW ls p) = ls := by
  unfold eventLines eventWord
  rw [div_append h, BitVec.ofNat_toNat, BitVec.setWidth_eq]

theorem fits_eventWord {tmoW p : Nat} (ls : BitVec 5) (h : p < 2 ^ payloadWidth tmoW) :
    fits (payloadWidth tmoW + 5) (eventWord tmoW ls p) = true := fits_iff.mpr (append_lt ls.isLt h)

/-- The word of an event has no bit above its lines. -/
theorem fits_encodeWord (tmoW : Nat) (i : Instr) : fits (payloadWidth tmoW + 5) (encodeWord tmoW i) = true := by
  cases i with
  | cmd0 arg => exact fits_eventWord _ (cmdWord_lt_payload _ _ _)
  | connect arg => exact fits_eventWord _ (cmdWord_lt_payload _ _ _)
  | disconnect arg => exact fits_eventWord _ (cmdWord_lt_payload _ _ _)
  | read arg => exact fits_eventWord _ (cmdWord_lt_payload _ _ _)
  | rx b => exact fits_eventWord _ (byte_lt_payload _ b)
  | expire => exact fits_eventWord _ (Nat.two_pow_pos _)
  | ioerr => exact fits_eventWord _ (Nat.two_pow_pos _)
  | reset => exact fits_eventWord _ (Nat.two_pow_pos _)

/-! ## Bytes -/

@[simp] theorem length_bytesOfWord (n w : Nat) : (bytesOfWord n w).length = n := by
  induction n generalizing w with
  | zero => rfl
  | succ n ih => simp [bytesOfWord, ih]

/-- The bytes of a word of `n` bytes give the word back. -/
theorem wordOfBytes_bytesOfWord {n w : Nat} (h : w < 2 ^ (8 * n)) : wordOfBytes (bytesOfWord n w) = w := by
  induction n generalizing w with
  | zero => simp at h; simp [bytesOfWord, wordOfBytes, h]
  | succ n ih =>
    have hw : w / 256 < 2 ^ (8 * n) := Nat.div_lt_of_lt_mul (by rwa [Nat.mul_succ, Nat.pow_add, Nat.mul_comm] at h)
    unfold bytesOfWord wordOfBytes
    rw [ih hw, BitVec.toNat_ofNat]
    exact Nat.mod_add_div w 256

/-- An event word has at most its bytes' bits. -/
theorem fits_eventBytes {tmoW w : Nat} (h : fits (payloadWidth tmoW + 5) w = true) : w < 2 ^ (8 * eventBytes tmoW) :=
  (fits_iff.mp h).trans_le (Nat.pow_le_pow_right (by decide) (by unfold eventBytes; omega))

end Sys2Proof
end

