-- ==== Sys2Proof/Laws/Memory.lean ====
section
/-!
SUPPORT. The laws of the frame buffer: what a slot reads as after a write, and that every operation keeps the canonical form.
-/

namespace Sys2Proof.Machine

@[simp] theorem Memory.slot_empty (i : Nat) : Memory.slot Memory.empty i = none := rfl

@[simp] theorem Memory.slot_nil (i : Nat) : Memory.slot [] i = none := rfl

theorem Memory.slot_cons (k : Nat) (v : Byte) (rest : Memory) (i : Nat) :
    Memory.slot ((k, v) :: rest) i = if k = i then some v else Memory.slot rest i := rfl

@[simp] theorem Memory.wf_empty : Memory.wf Memory.empty = true := rfl

/-- The head of a canonical buffer's tail: what `risesFrom` says of one entry. -/
theorem Memory.risesFrom_cons {lo k : Nat} {v : Byte} {rest : Memory} :
    Memory.risesFrom lo ((k, v) :: rest) = true ↔
      lo ≤ k ∧ k < Config.frameLen ∧ Memory.risesFrom (k + 1) rest = true := by
  simp [Memory.risesFrom, and_assoc]

/-- A slot below the least index holds no value. -/
theorem Memory.slot_below {lo : Nat} {m : Memory} (h : Memory.risesFrom lo m = true) {i : Nat} (hi : i < lo) :
    Memory.slot m i = none := by
  induction m generalizing lo with
  | nil => rfl
  | cons e rest ih =>
    obtain ⟨k, v⟩ := e
    obtain ⟨hk, -, hr⟩ := Memory.risesFrom_cons.mp h
    rw [Memory.slot_cons, if_neg (by omega)]
    exact ih hr (by omega)

/-- A slot above 31 holds no value (R40). -/
theorem Memory.slot_above {lo : Nat} {m : Memory} (h : Memory.risesFrom lo m = true) {i : Nat}
    (hi : Config.frameLen ≤ i) : Memory.slot m i = none := by
  induction m generalizing lo with
  | nil => rfl
  | cons e rest ih =>
    obtain ⟨k, v⟩ := e
    obtain ⟨-, hk, hr⟩ := Memory.risesFrom_cons.mp h
    rw [Memory.slot_cons, if_neg (by omega)]
    exact ih hr

/-- A write is read back at its slot and leaves every other slot alone; this needs no canonical form. -/
theorem Memory.slot_put (m : Memory) (i : Nat) (b : Byte) (j : Nat) :
    Memory.slot (Memory.put m i b) j = if i = j then some b else Memory.slot m j := by
  induction m with
  | nil => rfl
  | cons e rest ih =>
    obtain ⟨k, v⟩ := e
    unfold Memory.put
    by_cases h1 : i < k
    · rw [if_pos h1, Memory.slot_cons]
    · by_cases h2 : i = k
      · subst h2
        rw [if_neg h1, if_pos rfl, Memory.slot_cons, Memory.slot_cons]
        by_cases hj : i = j <;> simp [hj]
      · rw [if_neg h1, if_neg h2, Memory.slot_cons, Memory.slot_cons, ih]
        by_cases hj : i = j
        · rw [if_neg (by omega), if_pos hj, if_pos hj]
        · rw [if_neg hj, if_neg hj]

@[simp] theorem Memory.slot_put_same (m : Memory) (i : Nat) (b : Byte) : Memory.slot (Memory.put m i b) i = some b := by
  rw [Memory.slot_put, if_pos rfl]

theorem Memory.slot_put_other (m : Memory) {i j : Nat} (b : Byte) (h : i ≠ j) :
    Memory.slot (Memory.put m i b) j = Memory.slot m j := by
  rw [Memory.slot_put, if_neg h]

theorem Memory.risesFrom_put {lo : Nat} {m : Memory} (h : Memory.risesFrom lo m = true) {i : Nat} (b : Byte)
    (hlo : lo ≤ i) (hi : i < Config.frameLen) : Memory.risesFrom lo (Memory.put m i b) = true := by
  induction m generalizing lo with
  | nil => exact Memory.risesFrom_cons.mpr ⟨hlo, hi, rfl⟩
  | cons e rest ih =>
    obtain ⟨k, v⟩ := e
    obtain ⟨h1, h2, h3⟩ := Memory.risesFrom_cons.mp h
    unfold Memory.put
    split_ifs with h4 h5
    · exact Memory.risesFrom_cons.mpr ⟨hlo, hi, Memory.risesFrom_cons.mpr ⟨h4, h2, h3⟩⟩
    · subst h5; exact Memory.risesFrom_cons.mpr ⟨hlo, hi, h3⟩
    · exact Memory.risesFrom_cons.mpr ⟨h1, h2, ih h3 (by omega)⟩

/-- A write to a slot that exists keeps the canonical form. -/
theorem Memory.wf_put {m : Memory} (h : Memory.wf m = true) {i : Nat} (b : Byte) (hi : i < Config.frameLen) :
    Memory.wf (Memory.put m i b) = true :=
  Memory.risesFrom_put h b (Nat.zero_le i) hi

/-- Equal slots are equal buffers, in canonical form from the same index on. -/
theorem Memory.ext_risesFrom {lo : Nat} {m n : Memory} (hm : Memory.risesFrom lo m = true)
    (hn : Memory.risesFrom lo n = true) (h : ∀ i, Memory.slot m i = Memory.slot n i) : m = n := by
  induction m generalizing lo n with
  | nil =>
    cases n with
    | nil => rfl
    | cons e rest =>
      obtain ⟨k, v⟩ := e
      simpa [Memory.slot_cons] using h k
  | cons e rest ih =>
    obtain ⟨k, v⟩ := e
    cases n with
    | nil => simpa [Memory.slot_cons] using h k
    | cons e' rest' =>
      obtain ⟨k', v'⟩ := e'
      obtain ⟨-, -, hr⟩ := Memory.risesFrom_cons.mp hm
      obtain ⟨-, -, hr'⟩ := Memory.risesFrom_cons.mp hn
      have hk : k = k' := by
        rcases Nat.lt_trichotomy k k' with hlt | heq | hgt
        · have := h k
          rw [Memory.slot_cons, if_pos rfl, Memory.slot_cons, if_neg (by omega),
            Memory.slot_below hr' (by omega)] at this
          cases this
        · exact heq
        · have := h k'
          rw [Memory.slot_cons, if_neg (by omega), Memory.slot_cons, if_pos rfl,
            Memory.slot_below hr (by omega)] at this
          cases this
      subst hk
      have hv : v = v' := by simpa [Memory.slot_cons] using h k
      subst hv
      rw [ih hr hr' fun i => ?_]
      by_cases hi : i < k + 1
      · rw [Memory.slot_below hr hi, Memory.slot_below hr' hi]
      · have := h i
        rwa [Memory.slot_cons, Memory.slot_cons, if_neg (by omega), if_neg (by omega)] at this

/-- Equal slots are equal buffers. -/
theorem Memory.ext_slots {m n : Memory} (hm : Memory.wf m = true) (hn : Memory.wf n = true)
    (h : ∀ i, Memory.slot m i = Memory.slot n i) : m = n :=
  Memory.ext_risesFrom hm hn h

/-- A read of a slot answers its byte, or faults because the slot is empty. -/
theorem readSlot_ok {m : Memory} {i : Nat} {b : Byte} : readSlot m i = .ok b ↔ Memory.slot m i = some b := by
  unfold readSlot
  cases Memory.slot m i <;> simp

theorem readSlot_error {m : Memory} {i : Nat} {f : Fault} :
    readSlot m i = .error f ↔ Memory.slot m i = none ∧ f = .emptySlot i := by
  unfold readSlot
  cases Memory.slot m i <;> simp [eq_comm]

end Sys2Proof.Machine
end

