-- ==== Sys2Proof/Laws/State.lean ====
section
/-!
SUPPORT. The fields of a state after each named update, so that no proof unfolds a record.
-/

namespace Sys2Proof.Machine

/-! ## `quiet`: only the strobe changes -/

@[simp] theorem State.quiet_params (s : State) : s.quiet.params = s.params := rfl
@[simp] theorem State.quiet_session (s : State) : s.quiet.session = s.session := rfl
@[simp] theorem State.quiet_phase (s : State) : s.quiet.phase = s.phase := rfl
@[simp] theorem State.quiet_cnt (s : State) : s.quiet.cnt = s.cnt := rfl
@[simp] theorem State.quiet_acc (s : State) : s.quiet.acc = s.acc := rfl
@[simp] theorem State.quiet_buf (s : State) : s.quiet.buf = s.buf := rfl
@[simp] theorem State.quiet_tmo (s : State) : s.quiet.tmo = s.tmo := rfl
@[simp] theorem State.quiet_last (s : State) : s.quiet.last = s.last := rfl
@[simp] theorem State.quiet_resValid (s : State) : s.quiet.resValid = false := rfl
@[simp] theorem State.quiet_inp (s : State) : s.quiet.inp = s.inp := rfl
@[simp] theorem State.quiet_env (s : State) : s.quiet.env = s.env := rfl

/-! ## `clearAttempt` -/

@[simp] theorem State.clearAttempt_params (s : State) : s.clearAttempt.params = s.params := rfl
@[simp] theorem State.clearAttempt_session (s : State) : s.clearAttempt.session = s.session := rfl
@[simp] theorem State.clearAttempt_phase (s : State) : s.clearAttempt.phase = .idle := rfl
@[simp] theorem State.clearAttempt_cnt (s : State) : s.clearAttempt.cnt = 0#6 := rfl
@[simp] theorem State.clearAttempt_acc (s : State) : s.clearAttempt.acc = 0#16 := rfl
@[simp] theorem State.clearAttempt_buf (s : State) : s.clearAttempt.buf = Memory.empty := rfl
@[simp] theorem State.clearAttempt_tmo (s : State) : s.clearAttempt.tmo = s.tmo := rfl
@[simp] theorem State.clearAttempt_last (s : State) : s.clearAttempt.last = s.last := rfl
@[simp] theorem State.clearAttempt_resValid (s : State) : s.clearAttempt.resValid = s.resValid := rfl
@[simp] theorem State.clearAttempt_inp (s : State) : s.clearAttempt.inp = s.inp := rfl
@[simp] theorem State.clearAttempt_env (s : State) : s.clearAttempt.env = s.env := rfl

/-! ## `startAttempt` -/

@[simp] theorem State.startAttempt_params (s : State) : s.startAttempt.params = s.params := rfl
@[simp] theorem State.startAttempt_session (s : State) : s.startAttempt.session = s.session := rfl
@[simp] theorem State.startAttempt_phase (s : State) : s.startAttempt.phase = .hdr := rfl
@[simp] theorem State.startAttempt_cnt (s : State) : s.startAttempt.cnt = 0#6 := rfl
@[simp] theorem State.startAttempt_acc (s : State) : s.startAttempt.acc = 0#16 := rfl
@[simp] theorem State.startAttempt_buf (s : State) : s.startAttempt.buf = Memory.empty := rfl
@[simp] theorem State.startAttempt_tmo (s : State) : s.startAttempt.tmo = s.tmo := rfl
@[simp] theorem State.startAttempt_last (s : State) : s.startAttempt.last = s.last := rfl
@[simp] theorem State.startAttempt_resValid (s : State) : s.startAttempt.resValid = s.resValid := rfl
@[simp] theorem State.startAttempt_inp (s : State) : s.startAttempt.inp = s.inp := rfl
@[simp] theorem State.startAttempt_env (s : State) : s.startAttempt.env = s.env := rfl

/-! ## `emit`: the held result and the strobe -/

@[simp] theorem State.emit_params (st : Status) (m : Option Measurement) (s : State) :
    (s.emit st m).params = s.params := rfl
@[simp] theorem State.emit_session (st : Status) (m : Option Measurement) (s : State) :
    (s.emit st m).session = s.session := rfl
@[simp] theorem State.emit_phase (st : Status) (m : Option Measurement) (s : State) :
    (s.emit st m).phase = s.phase := rfl
@[simp] theorem State.emit_cnt (st : Status) (m : Option Measurement) (s : State) : (s.emit st m).cnt = s.cnt := rfl
@[simp] theorem State.emit_acc (st : Status) (m : Option Measurement) (s : State) : (s.emit st m).acc = s.acc := rfl
@[simp] theorem State.emit_buf (st : Status) (m : Option Measurement) (s : State) : (s.emit st m).buf = s.buf := rfl
@[simp] theorem State.emit_tmo (st : Status) (m : Option Measurement) (s : State) : (s.emit st m).tmo = s.tmo := rfl
@[simp] theorem State.emit_last (st : Status) (m : Option Measurement) (s : State) :
    (s.emit st m).last = some { status := st, meas := m } := rfl
@[simp] theorem State.emit_resValid (st : Status) (m : Option Measurement) (s : State) :
    (s.emit st m).resValid = true := rfl
@[simp] theorem State.emit_inp (st : Status) (m : Option Measurement) (s : State) : (s.emit st m).inp = s.inp := rfl
@[simp] theorem State.emit_env (st : Status) (m : Option Measurement) (s : State) : (s.emit st m).env = s.env := rfl

/-! ## `dropRst`: only the reset line's samples change -/

@[simp] theorem State.dropRst_params (s : State) : s.dropRst.params = s.params := rfl
@[simp] theorem State.dropRst_session (s : State) : s.dropRst.session = s.session := rfl
@[simp] theorem State.dropRst_phase (s : State) : s.dropRst.phase = s.phase := rfl
@[simp] theorem State.dropRst_cnt (s : State) : s.dropRst.cnt = s.cnt := rfl
@[simp] theorem State.dropRst_acc (s : State) : s.dropRst.acc = s.acc := rfl
@[simp] theorem State.dropRst_buf (s : State) : s.dropRst.buf = s.buf := rfl
@[simp] theorem State.dropRst_tmo (s : State) : s.dropRst.tmo = s.tmo := rfl
@[simp] theorem State.dropRst_last (s : State) : s.dropRst.last = s.last := rfl
@[simp] theorem State.dropRst_resValid (s : State) : s.dropRst.resValid = s.resValid := rfl
@[simp] theorem State.dropRst_inp (s : State) : s.dropRst.inp = s.inp := rfl
@[simp] theorem State.dropRst_host (s : State) : s.dropRst.env.host = s.env.host := rfl
@[simp] theorem State.dropRst_chan (s : State) : s.dropRst.env.chan = s.env.chan := rfl
@[simp] theorem State.dropRst_rst (s : State) : s.dropRst.env.rst = s.env.rst.tail := rfl

/-! ## `afterChan`: the offer leaves the channel -/

@[simp] theorem State.afterChan_params (s : State) (o : ChanOffer) (r : List ChanOffer) :
    (s.afterChan o r).params = s.params := by cases o <;> rfl
@[simp] theorem State.afterChan_session (s : State) (o : ChanOffer) (r : List ChanOffer) :
    (s.afterChan o r).session = s.session := by cases o <;> rfl
@[simp] theorem State.afterChan_phase (s : State) (o : ChanOffer) (r : List ChanOffer) :
    (s.afterChan o r).phase = s.phase := by cases o <;> rfl
@[simp] theorem State.afterChan_cnt (s : State) (o : ChanOffer) (r : List ChanOffer) :
    (s.afterChan o r).cnt = s.cnt := by cases o <;> rfl
@[simp] theorem State.afterChan_acc (s : State) (o : ChanOffer) (r : List ChanOffer) :
    (s.afterChan o r).acc = s.acc := by cases o <;> rfl
@[simp] theorem State.afterChan_buf (s : State) (o : ChanOffer) (r : List ChanOffer) :
    (s.afterChan o r).buf = s.buf := by cases o <;> rfl
@[simp] theorem State.afterChan_tmo (s : State) (o : ChanOffer) (r : List ChanOffer) :
    (s.afterChan o r).tmo = s.tmo := by cases o <;> rfl
@[simp] theorem State.afterChan_last (s : State) (o : ChanOffer) (r : List ChanOffer) :
    (s.afterChan o r).last = s.last := by cases o <;> rfl
@[simp] theorem State.afterChan_resValid (s : State) (o : ChanOffer) (r : List ChanOffer) :
    (s.afterChan o r).resValid = s.resValid := by cases o <;> rfl
@[simp] theorem State.afterChan_chOk (s : State) (o : ChanOffer) (r : List ChanOffer) :
    (s.afterChan o r).inp.chOk = s.inp.chOk := by cases o <;> rfl
@[simp] theorem State.afterChan_env (s : State) (o : ChanOffer) (r : List ChanOffer) :
    (s.afterChan o r).env = { s.env with chan := r } := by cases o <;> rfl
@[simp] theorem State.afterChan_now (s : State) (b : Byte) (now : Timestamp) (r : List ChanOffer) :
    (s.afterChan (.byte b now) r).inp.now = lowBits s.params.tsW now := rfl

/-! ## `resetWith`: the reset values, whatever the widths -/

@[simp] theorem State.resetWith_params (p : Params) : (State.resetWith p).params = p := rfl
@[simp] theorem State.resetWith_session (p : Params) : (State.resetWith p).session = .disc := rfl
@[simp] theorem State.resetWith_phase (p : Params) : (State.resetWith p).phase = .idle := rfl
@[simp] theorem State.resetWith_cnt (p : Params) : (State.resetWith p).cnt = 0#6 := rfl
@[simp] theorem State.resetWith_acc (p : Params) : (State.resetWith p).acc = 0#16 := rfl
@[simp] theorem State.resetWith_buf (p : Params) : (State.resetWith p).buf = Memory.empty := rfl
@[simp] theorem State.resetWith_tmo (p : Params) : (State.resetWith p).tmo = none := rfl
@[simp] theorem State.resetWith_last (p : Params) : (State.resetWith p).last = none := rfl
@[simp] theorem State.resetWith_resValid (p : Params) : (State.resetWith p).resValid = false := rfl

end Sys2Proof.Machine
end

