-- ==== Sys2Proof/Laws/Ops.lean ====
section
/-!
SUPPORT. What each shared operation can do, said once: completion, acceptance, taking a byte, the header check, completion of a
frame, fetching.
-/

namespace Sys2Proof.Machine

/-! ## Completion (R85) -/

/-- `finish` answers a next state for every status but DECODE_FAIL. -/
theorem finish_next {st : Status} (h : st ≠ .decodeFail) (m : Option Measurement) (s : State) :
    finish st m s = .next (s.clearAttempt.emit st m) := by
  unfold finish; rw [if_neg h]

/-- What `finish` leaves. -/
theorem finish_ended (st : Status) (m : Option Measurement) (s : State) : (s.clearAttempt.emit st m).Ended st m :=
  ⟨rfl, rfl, rfl, fun _ => rfl, rfl, rfl⟩

/-- If `finish` answers a next state, it is the cleared state with the result. -/
theorem finish_cases {st : Status} {m : Option Measurement} {s t : State} (h : finish st m s = .next t) :
    st ≠ .decodeFail ∧ t = s.clearAttempt.emit st m := by
  unfold finish at h
  split_ifs at h with hst
  exact ⟨hst, by simpa using h.symm⟩

/-! ## When an event is enabled (R67, R80) -/

theorem acceptCommand_idle {k : State → Out} {s : State} (h : s.phase = .idle) : acceptCommand k s = k s.quiet := by
  unfold acceptCommand; rw [h]

theorem acceptCommand_busy {k : State → Out} {s : State} (h : s.phase = .hdr ∨ s.phase = .body) :
    acceptCommand k s = .refused .commandWhileBusy := by
  unfold acceptCommand; rcases h with h | h <;> rw [h]

theorem acceptCommand_unused {k : State → Out} {s : State} (h : s.phase = .unused) :
    acceptCommand k s = .fault .illegalPhase := by
  unfold acceptCommand; rw [h]

/-- A command that answers a next state was accepted in IDLE. -/
theorem acceptCommand_cases {k : State → Out} {s t : State} (h : acceptCommand k s = .next t) :
    s.phase = .idle ∧ k s.quiet = .next t := by
  unfold acceptCommand at h
  cases hp : s.phase <;> simp [hp] at h
  exact ⟨rfl, h⟩

theorem channelEvent_idle {f g : State → Out} {s : State} (h : s.phase = .idle) :
    channelEvent f g s = .refused .channelEventWhileIdle := by
  unfold channelEvent; rw [h]

theorem channelEvent_hdr {f g : State → Out} {s : State} (h : s.phase = .hdr) : channelEvent f g s = f s.quiet := by
  unfold channelEvent; rw [h]

theorem channelEvent_body {f g : State → Out} {s : State} (h : s.phase = .body) : channelEvent f g s = g s.quiet := by
  unfold channelEvent; rw [h]

theorem channelEvent_unused {f g : State → Out} {s : State} (h : s.phase = .unused) :
    channelEvent f g s = .fault .illegalPhase := by
  unfold channelEvent; rw [h]

/-- A channel event that answers a next state came in HDR or in BODY. -/
theorem channelEvent_cases {f g : State → Out} {s t : State} (h : channelEvent f g s = .next t) :
    (s.phase = .hdr ∧ f s.quiet = .next t) ∨ (s.phase = .body ∧ g s.quiet = .next t) := by
  unfold channelEvent at h
  cases hp : s.phase <;> simp [hp] at h
  · exact .inl ⟨rfl, h⟩
  · exact .inr ⟨rfl, h⟩

/-! ## Taking a byte (R101, R104) -/

theorem takeByte_ok {b : Byte} {s : State} (h : rxSlot s < Config.frameLen) :
    takeByte b s = .ok { s with buf := Memory.put s.buf (rxSlot s) b, cnt := s.cnt + 1#6 } := by
  unfold takeByte; rw [if_pos h]

theorem takeByte_cases {b : Byte} {s t : State} (h : takeByte b s = .ok t) :
    rxSlot s < Config.frameLen ∧ t = { s with buf := Memory.put s.buf (rxSlot s) b, cnt := s.cnt + 1#6 } := by
  unfold takeByte at h
  split_ifs at h with hs
  exact ⟨hs, by simpa using h.symm⟩

@[simp] theorem rxSlot_quiet (s : State) : rxSlot s.quiet = rxSlot s := by
  unfold rxSlot; rw [State.quiet_cnt]

@[simp] theorem orFault_ok {α : Type} (a : α) (k : α → Out) : orFault (.ok a) k = k a := rfl

@[simp] theorem orFault_error {α : Type} (f : Fault) (k : α → Out) : orFault (.error f) k = .fault f := rfl

theorem orFault_cases {α : Type} {x : Except Fault α} {k : α → Out} {t : State} (h : orFault x k = .next t) :
    ∃ a, x = .ok a ∧ k a = .next t := by
  cases x with
  | ok a => exact ⟨a, rfl, h⟩
  | error f => simp at h

/-! ## The header check and the completion of a frame (R102, R105) -/

theorem headerCheck_cases {s t : State} (h : headerCheck s = .next t) :
    (Memory.slot s.buf 0 = some Config.magic0 ∧ Memory.slot s.buf 1 = some Config.magic1 ∧
      t = { s with phase := .body }) ∨
    (∃ b0 b1, Memory.slot s.buf 0 = some b0 ∧ Memory.slot s.buf 1 = some b1 ∧
      ¬(b0 = Config.magic0 ∧ b1 = Config.magic1) ∧ t = s.clearAttempt.emit .syncFail none) := by
  unfold headerCheck at h
  obtain ⟨b0, h0, h0'⟩ := orFault_cases h
  obtain ⟨b1, h1, h⟩ := orFault_cases h0'
  rw [readSlot_ok] at h0 h1
  split_ifs at h with hm
  · obtain ⟨rfl, rfl⟩ := hm
    exact .inl ⟨h0, h1, (Host.Outcome.next.inj h).symm⟩
  · exact .inr ⟨b0, b1, h0, h1, hm, (finish_cases h).2⟩

theorem be16At_ok {m : Memory} {i : Nat} {v : Half} :
    be16At m i = .ok v ↔
      ∃ hi lo, Memory.slot m i = some hi ∧ Memory.slot m (i + 1) = some lo ∧ v = be16 hi lo := by
  unfold be16At readSlot
  cases Memory.slot m i <;> cases Memory.slot m (i + 1) <;> simp [eq_comm]

theorem checksumValid_ok {acc : Half} {m : Memory} {v : Bool} :
    checksumValid acc m = .ok v ↔ ∃ c, be16At m Config.csumPos = .ok c ∧ v = (acc == c) := by
  unfold checksumValid
  cases be16At m Config.csumPos <;> simp [eq_comm]

theorem decodeFields_ok {buf : Memory} {now : Timestamp} {m : Measurement} :
    decodeFields buf now = .ok m ↔
      ∃ v1 v25 v10, be16At buf Config.pm1Pos = .ok v1 ∧ be16At buf Config.pm25Pos = .ok v25 ∧
        be16At buf Config.pm10Pos = .ok v10 ∧
        m = { pm1Raw := v1, pm25Raw := v25, pm10Raw := v10, pm1 := f64Div10 v1, pm25 := f64Div10 v25,
              pm10 := f64Div10 v10, capturedAt := now } := by
  unfold decodeFields
  cases be16At buf Config.pm1Pos <;> cases be16At buf Config.pm25Pos <;> cases be16At buf Config.pm10Pos <;>
    simp [eq_comm]

/-- A completion that answers a next state ends the attempt, with OK and a Measurement or with CSUM_FAIL. -/
theorem complete_cases {s t : State} (h : complete s = .next t) :
    (∃ m, checksumValid s.acc s.buf = .ok true ∧ decodeFields s.buf s.inp.now = .ok m ∧
      t = s.clearAttempt.emit .ok (some m)) ∨
    (checksumValid s.acc s.buf = .ok false ∧ t = s.clearAttempt.emit .csumFail none) := by
  unfold complete at h
  obtain ⟨v, hv, h⟩ := orFault_cases h
  cases v with
  | true =>
    rw [if_pos rfl] at h
    obtain ⟨m, hm, h⟩ := orFault_cases h
    exact .inl ⟨m, hv, hm, (finish_cases h).2⟩
  | false =>
    rw [if_neg (by decide)] at h
    exact .inr ⟨hv, (finish_cases h).2⟩

/-- The state after the byte is stored, counted and, where `added`, summed. -/
def State.withByte (s : State) (b : Byte) (added : Bool) : State :=
  { s with buf := Memory.put s.buf (rxSlot s) b, cnt := s.cnt + 1#6,
           acc := if added then addToSum s.acc b else s.acc }

/-- Everything an RX of the header phase can do. -/
theorem rxHeader_cases {b : Byte} {s t : State} (h : rxHeader b s = .next t) :
    rxSlot s < Config.frameLen ∧
      ((rxSlot s ≠ 1 ∧ t = s.withByte b true) ∨ (rxSlot s = 1 ∧ headerCheck (s.withByte b true) = .next t)) := by
  obtain ⟨u, hu, h⟩ := orFault_cases h
  obtain ⟨hs, rfl⟩ := takeByte_cases hu
  refine ⟨hs, ?_⟩
  split_ifs at h with h1
  · exact .inr ⟨h1, h⟩
  · exact .inl ⟨h1, by simpa [State.withByte] using h.symm⟩

/-- Everything an RX of the body phase can do. -/
theorem rxBody_cases {b : Byte} {s t : State} (h : rxBody b s = .next t) :
    rxSlot s < Config.frameLen ∧
      ((rxSlot s ≠ 31 ∧ t = s.withByte b (decide (rxSlot s < Config.summedLen))) ∨
       (rxSlot s = 31 ∧ complete (s.withByte b false) = .next t)) := by
  obtain ⟨u, hu, h⟩ := orFault_cases h
  obtain ⟨hs, rfl⟩ := takeByte_cases hu
  refine ⟨hs, ?_⟩
  by_cases h31 : rxSlot s = 31
  · rw [if_pos h31, if_neg (by rw [h31]; decide)] at h
    exact .inr ⟨h31, by simpa [State.withByte] using h⟩
  · rw [if_neg h31] at h
    refine .inl ⟨h31, ?_⟩
    by_cases hlt : rxSlot s < Config.summedLen <;> simp [hlt, State.withByte] at h ⊢ <;> exact h.symm

/-! ## Fetching -/

theorem fetch_reset {s : State} (h : s.rstNow = true) : fetch s = .next (.reset, s.dropRst) := by
  unfold fetch; rw [if_pos h]

theorem fetch_idle {s : State} (h : s.rstNow = false) (hp : s.phase = .idle) : fetch s = fetchHost s.dropRst := by
  unfold fetch; rw [if_neg (by simp [h]), hp]

theorem fetch_attempt {s : State} (h : s.rstNow = false) (hp : s.phase = .hdr ∨ s.phase = .body) :
    fetch s = .next (fetchChan s.dropRst) := by
  unfold fetch; rw [if_neg (by simp [h])]; rcases hp with hp | hp <;> rw [hp]

/-- A step runs the event that is fetched. -/
theorem step_of_fetch {s t : State} {i : Instr} (h : fetch s = .next (i, t)) : step s = exec i t := by
  unfold step; rw [h]

/-- A step that answers a next state fetched an event and ran it. -/
theorem step_cases {s t : State} (h : step s = .next t) : ∃ i u, fetch s = .next (i, u) ∧ exec i u = .next t := by
  unfold step at h
  cases hf : fetch s with
  | next p => obtain ⟨i, u⟩ := p; rw [hf] at h; exact ⟨i, u, rfl, h⟩
  | fault f => rw [hf] at h; cases h
  | refused r => rw [hf] at h; cases h

/-- The state without its inputs and its environment: what fetching leaves alone. -/
def State.SameBlock (s u : State) : Prop :=
  u.params = s.params ∧ u.session = s.session ∧ u.phase = s.phase ∧ u.cnt = s.cnt ∧ u.acc = s.acc ∧ u.buf = s.buf ∧
    u.tmo = s.tmo ∧ u.last = s.last ∧ u.resValid = s.resValid

/-- Fetching takes RESET, or a command in IDLE, or a channel event in an attempt, and changes nothing of the block. -/
theorem fetch_cases {s u : State} {i : Instr} (h : fetch s = .next (i, u)) :
    s.SameBlock u ∧
      ((i = .reset ∧ u.inp = s.inp ∧ u.env.host = s.env.host ∧ u.env.chan = s.env.chan) ∨
       (s.phase = .idle ∧ ∃ o rest, s.env.host = o :: rest ∧ i = decodeCommand s.params.tmoW o.word ∧
         u.env.host = rest ∧ u.env.chan = s.env.chan ∧ u.inp.now = s.inp.now) ∨
       ((s.phase = .hdr ∨ s.phase = .body) ∧ s.env.chan = [] ∧ i = .expire ∧ u = s.dropRst) ∨
       ((s.phase = .hdr ∨ s.phase = .body) ∧
         ∃ o rest, s.env.chan = o :: rest ∧ i = o.event ∧ u = s.dropRst.afterChan o rest)) := by
  by_cases hr : s.rstNow = true
  · rw [fetch_reset hr] at h
    obtain ⟨rfl, rfl⟩ : Instr.reset = i ∧ s.dropRst = u := by simpa using h
    exact ⟨⟨rfl, rfl, rfl, rfl, rfl, rfl, rfl, rfl, rfl⟩, .inl ⟨rfl, rfl, rfl, rfl⟩⟩
  · have hr : s.rstNow = false := by simpa using hr
    have attempt (hp : s.phase = .hdr ∨ s.phase = .body) :
        s.SameBlock u ∧ ((s.env.chan = [] ∧ i = .expire ∧ u = s.dropRst) ∨
          ∃ o rest, s.env.chan = o :: rest ∧ i = o.event ∧ u = s.dropRst.afterChan o rest) := by
      rw [fetch_attempt hr hp] at h
      unfold fetchChan at h
      rw [State.dropRst_chan] at h
      cases hc : s.env.chan with
      | nil =>
        simp only [hc] at h
        obtain ⟨rfl, rfl⟩ : Instr.expire = i ∧ s.dropRst = u := by simpa using h
        exact ⟨⟨rfl, rfl, rfl, rfl, rfl, rfl, rfl, rfl, rfl⟩, .inl ⟨rfl, rfl, rfl⟩⟩
      | cons o rest =>
        simp only [hc] at h
        obtain ⟨rfl, rfl⟩ : o.event = i ∧ s.dropRst.afterChan o rest = u := by simpa using h
        exact ⟨by simp [State.SameBlock], .inr ⟨o, rest, rfl, rfl, rfl⟩⟩
    cases hp : s.phase with
    | idle =>
      rw [fetch_idle hr hp] at h
      unfold fetchHost at h
      rw [State.dropRst_host] at h
      cases hh : s.env.host with
      | nil =>
        simp only [hh] at h
        unfold fetchLateReset at h
        split at h
        · cases h
        · simp only [Host.Outcome.next.injEq, Prod.mk.injEq] at h
          obtain ⟨rfl, rfl⟩ := h
          exact ⟨⟨rfl, rfl, rfl, rfl, rfl, rfl, rfl, rfl, rfl⟩, .inl ⟨rfl, rfl, hh, rfl⟩⟩
      | cons o rest =>
        simp only [hh, Host.Outcome.next.injEq, Prod.mk.injEq] at h
        obtain ⟨rfl, rfl⟩ := h
        exact ⟨⟨rfl, rfl, rfl, rfl, rfl, rfl, rfl, rfl, rfl⟩, .inr (.inl ⟨rfl, o, rest, rfl, rfl, rfl, rfl, rfl⟩)⟩
    | hdr =>
      obtain ⟨hb, hc | hc⟩ := attempt (.inl hp)
      · exact ⟨hb, .inr (.inr (.inl ⟨.inl rfl, hc⟩))⟩
      · exact ⟨hb, .inr (.inr (.inr ⟨.inl rfl, hc⟩))⟩
    | body =>
      obtain ⟨hb, hc | hc⟩ := attempt (.inr hp)
      · exact ⟨hb, .inr (.inr (.inl ⟨.inr rfl, hc⟩))⟩
      · exact ⟨hb, .inr (.inr (.inr ⟨.inr rfl, hc⟩))⟩
    | unused =>
      unfold fetch at h
      rw [if_neg (by simp [hr]), hp] at h
      cases h

/-- The event that is fetched is well formed for the machine's TMO_W. -/
theorem fetch_wellFormed {s u : State} {i : Instr} (h : fetch s = .next (i, u)) : i.wellFormed s.params.tmoW = true := by
  obtain ⟨-, ⟨rfl, -⟩ | ⟨-, o, rest, -, rfl, -⟩ | ⟨-, -, rfl, -⟩ | ⟨-, o, rest, -, rfl, -⟩⟩ := fetch_cases h
  · rfl
  · exact decodeCommand_wellFormed _ _
  · rfl
  · cases o <;> rfl

end Sys2Proof.Machine
end

