-- ==== Sys2Proof/Laws/Exec.lean ====
section
/-!
SUPPORT. What `exec` can do, said once: one rule for each way an event answers a next state, and the inversion that every
next state comes by a rule. Proofs about `exec` split on the rule and never unfold a meaning.
-/

namespace Sys2Proof.Machine

/-! ## The meanings over the shared operations -/

theorem exec_cmd0 (arg : Ticks) (s : State) : exec (.cmd0 arg) s = acceptCommand (finish .badCmd none) s := rfl

theorem exec_disconnect (arg : Ticks) (s : State) :
    exec (.disconnect arg) s = acceptCommand (fun t => finish .ok none { t with session := .disc }) s := rfl

theorem exec_rx (b : Byte) (s : State) : exec (.rx b) s = channelEvent (rxHeader b) (rxBody b) s := rfl

theorem exec_expire (s : State) :
    exec .expire s = channelEvent (finish .syncFail none) (finish .syncFail none) s := rfl

theorem exec_ioerr (s : State) : exec .ioerr s = channelEvent (finish .ioError none) (finish .ioError none) s := rfl

theorem exec_reset (s : State) : exec .reset s = .next { State.resetWith s.params with inp := s.inp, env := s.env } := rfl

/-- One rule for each way an event is executed. -/
inductive Rule (s : State) : Instr → State → Prop where
  | reset : Rule s .reset { State.resetWith s.params with inp := s.inp, env := s.env }
  | cmd0 (arg : Ticks) (hp : s.phase = .idle) : Rule s (.cmd0 arg) (s.quiet.clearAttempt.emit .badCmd none)
  | connectTwice (arg : Ticks) (hp : s.phase = .idle) (hs : s.session = .conn) :
      Rule s (.connect arg) (s.quiet.clearAttempt.emit .lifecycleError none)
  | connectOpens (arg : Ticks) (hp : s.phase = .idle) (hs : s.session = .disc) (hc : s.inp.chOk = true) :
      Rule s (.connect arg)
        (({ s.quiet with session := .conn, tmo := some arg } : State).clearAttempt.emit .ok none)
  | connectFails (arg : Ticks) (hp : s.phase = .idle) (hs : s.session = .disc) (hc : s.inp.chOk = false) :
      Rule s (.connect arg) (s.quiet.clearAttempt.emit .connError none)
  | disconnect (arg : Ticks) (hp : s.phase = .idle) :
      Rule s (.disconnect arg) (({ s.quiet with session := .disc } : State).clearAttempt.emit .ok none)
  | readClosed (arg : Ticks) (hp : s.phase = .idle) (hs : s.session = .disc) :
      Rule s (.read arg) (s.quiet.clearAttempt.emit .lifecycleError none)
  | readStarts (arg : Ticks) (hp : s.phase = .idle) (hs : s.session = .conn) :
      Rule s (.read arg) s.quiet.startAttempt
  | headerByte (b : Byte) (hp : s.phase = .hdr) (hl : rxSlot s < Config.frameLen) (hn : rxSlot s ≠ 1) :
      Rule s (.rx b) (s.quiet.withByte b true)
  | headerMatch (b : Byte) (hp : s.phase = .hdr) (hn : rxSlot s = 1)
      (h0 : Memory.slot s.buf 0 = some Config.magic0) (h1 : b = Config.magic1) :
      Rule s (.rx b) { s.quiet.withByte b true with phase := .body }
  | headerMismatch (b b0 : Byte) (hp : s.phase = .hdr) (hn : rxSlot s = 1) (h0 : Memory.slot s.buf 0 = some b0)
      (h1 : ¬(b0 = Config.magic0 ∧ b = Config.magic1)) :
      Rule s (.rx b) ((s.quiet.withByte b true).clearAttempt.emit .syncFail none)
  | bodyByte (b : Byte) (hp : s.phase = .body) (hl : rxSlot s < Config.frameLen) (hn : rxSlot s ≠ 31) :
      Rule s (.rx b) (s.quiet.withByte b (decide (rxSlot s < Config.summedLen)))
  | frameValid (b : Byte) (m : Measurement) (hp : s.phase = .body) (hn : rxSlot s = 31)
      (hv : checksumValid s.acc (Memory.put s.buf 31 b) = .ok true)
      (hm : decodeFields (Memory.put s.buf 31 b) s.inp.now = .ok m) :
      Rule s (.rx b) ((s.quiet.withByte b false).clearAttempt.emit .ok (some m))
  | frameInvalid (b : Byte) (hp : s.phase = .body) (hn : rxSlot s = 31)
      (hv : checksumValid s.acc (Memory.put s.buf 31 b) = .ok false) :
      Rule s (.rx b) ((s.quiet.withByte b false).clearAttempt.emit .csumFail none)
  | expire (hp : s.phase = .hdr ∨ s.phase = .body) : Rule s .expire (s.quiet.clearAttempt.emit .syncFail none)
  | ioerr (hp : s.phase = .hdr ∨ s.phase = .body) : Rule s .ioerr (s.quiet.clearAttempt.emit .ioError none)

@[simp] theorem State.withByte_params (s : State) (b : Byte) (a : Bool) : (s.withByte b a).params = s.params := rfl
@[simp] theorem State.withByte_phase (s : State) (b : Byte) (a : Bool) : (s.withByte b a).phase = s.phase := rfl
@[simp] theorem State.withByte_session (s : State) (b : Byte) (a : Bool) : (s.withByte b a).session = s.session := rfl
@[simp] theorem State.withByte_tmo (s : State) (b : Byte) (a : Bool) : (s.withByte b a).tmo = s.tmo := rfl
@[simp] theorem State.withByte_last (s : State) (b : Byte) (a : Bool) : (s.withByte b a).last = s.last := rfl
@[simp] theorem State.withByte_resValid (s : State) (b : Byte) (a : Bool) : (s.withByte b a).resValid = s.resValid := rfl
@[simp] theorem State.withByte_inp (s : State) (b : Byte) (a : Bool) : (s.withByte b a).inp = s.inp := rfl
@[simp] theorem State.withByte_env (s : State) (b : Byte) (a : Bool) : (s.withByte b a).env = s.env := rfl
@[simp] theorem State.withByte_buf (s : State) (b : Byte) (a : Bool) :
    (s.withByte b a).buf = Memory.put s.buf (rxSlot s) b := rfl
@[simp] theorem State.withByte_cnt (s : State) (b : Byte) (a : Bool) : (s.withByte b a).cnt = s.cnt + 1#6 := rfl
@[simp] theorem State.withByte_acc (s : State) (b : Byte) (a : Bool) :
    (s.withByte b a).acc = if a then addToSum s.acc b else s.acc := rfl

theorem execConnect_rule {arg : Ticks} {s t : State} (h : execConnect arg s = .next t) : Rule s (.connect arg) t := by
  obtain ⟨hp, h⟩ := acceptCommand_cases h
  cases hs : s.session with
  | conn =>
    simp only [State.quiet_session, hs] at h
    rw [(finish_cases h).2]
    exact .connectTwice arg hp hs
  | disc =>
    simp only [State.quiet_session, hs, State.quiet_inp] at h
    cases hc : s.inp.chOk with
    | true =>
      simp only [hc] at h
      rw [(finish_cases h).2]
      exact .connectOpens arg hp hs hc
    | false =>
      simp only [hc] at h
      rw [(finish_cases h).2]
      exact .connectFails arg hp hs hc

theorem execRead_rule {arg : Ticks} {s t : State} (h : execRead arg s = .next t) : Rule s (.read arg) t := by
  obtain ⟨hp, h⟩ := acceptCommand_cases h
  cases hs : s.session with
  | disc =>
    simp only [State.quiet_session, hs] at h
    rw [(finish_cases h).2]
    exact .readClosed arg hp hs
  | conn =>
    simp only [State.quiet_session, hs] at h
    cases h
    exact .readStarts arg hp hs

theorem execRx_rule {b : Byte} {s t : State} (h : execRx b s = .next t) : Rule s (.rx b) t := by
  rcases channelEvent_cases h with ⟨hp, h⟩ | ⟨hp, h⟩
  · obtain ⟨hl, ⟨hn, rfl⟩ | ⟨hn, h⟩⟩ := rxHeader_cases h
    · exact .headerByte b hp hl hn
    · rw [rxSlot_quiet] at hn
      have h0 : Memory.slot (Memory.put s.buf 1 b) 0 = Memory.slot s.buf 0 := Memory.slot_put_other _ _ (by decide)
      rcases headerCheck_cases h with ⟨g0, g1, rfl⟩ | ⟨b0, b1, g0, g1, hm, rfl⟩ <;>
        simp only [State.withByte_buf, State.quiet_buf, rxSlot_quiet, hn, h0, Memory.slot_put_same, Option.some.injEq]
          at g0 g1
      · exact .headerMatch b hp hn g0 g1
      · exact .headerMismatch b b0 hp hn g0 (g1 ▸ hm)
  · obtain ⟨hl, ⟨hn, rfl⟩ | ⟨hn, h⟩⟩ := rxBody_cases h
    · exact .bodyByte b hp hl hn
    · rw [rxSlot_quiet] at hn
      rcases complete_cases h with ⟨m, hv, hm, rfl⟩ | ⟨hv, rfl⟩ <;>
        simp only [State.withByte_buf, State.withByte_acc, State.quiet_buf, State.quiet_acc, rxSlot_quiet, hn,
          Bool.false_eq_true, if_false] at hv
      · simp only [State.withByte_buf, State.quiet_buf, rxSlot_quiet, hn, State.withByte_inp, State.quiet_inp] at hm
        exact .frameValid b m hp hn hv hm
      · exact .frameInvalid b hp hn hv

/-- Every next state comes by a rule. -/
theorem exec_rule {i : Instr} {s t : State} (h : exec i s = .next t) : Rule s i t := by
  cases i with
  | cmd0 arg =>
    rw [exec_cmd0] at h
    obtain ⟨hp, h⟩ := acceptCommand_cases h
    rw [(finish_cases h).2]
    exact .cmd0 arg hp
  | connect arg => exact execConnect_rule h
  | disconnect arg =>
    rw [exec_disconnect] at h
    obtain ⟨hp, h⟩ := acceptCommand_cases h
    rw [(finish_cases h).2]
    exact .disconnect arg hp
  | read arg => exact execRead_rule h
  | rx b => exact execRx_rule h
  | expire =>
    rw [exec_expire] at h
    rcases channelEvent_cases h with ⟨hp, h⟩ | ⟨hp, h⟩ <;> rw [(finish_cases h).2]
    · exact .expire (.inl hp)
    · exact .expire (.inr hp)
  | ioerr =>
    rw [exec_ioerr] at h
    rcases channelEvent_cases h with ⟨hp, h⟩ | ⟨hp, h⟩ <;> rw [(finish_cases h).2]
    · exact .ioerr (.inl hp)
    · exact .ioerr (.inr hp)
  | reset => cases h; exact .reset

theorem rxHeader_of_slot {b : Byte} {s : State} (hl : rxSlot s < Config.frameLen) :
    rxHeader b s = if rxSlot s = 1 then headerCheck (s.withByte b true) else .next (s.withByte b true) := by
  unfold rxHeader
  rw [takeByte_ok hl]
  rfl

theorem rxBody_of_slot {b : Byte} {s : State} (hl : rxSlot s < Config.frameLen) :
    rxBody b s =
      if rxSlot s = 31 then complete (s.withByte b (decide (rxSlot s < Config.summedLen)))
      else .next (s.withByte b (decide (rxSlot s < Config.summedLen))) := by
  unfold rxBody
  rw [takeByte_ok hl, orFault_ok]
  by_cases h : rxSlot s < Config.summedLen <;> simp [h, State.withByte]

theorem headerCheck_of_slots {s : State} {b0 b1 : Byte} (h0 : Memory.slot s.buf 0 = some b0)
    (h1 : Memory.slot s.buf 1 = some b1) :
    headerCheck s =
      if b0 = Config.magic0 ∧ b1 = Config.magic1 then .next { s with phase := .body } else finish .syncFail none s := by
  unfold headerCheck
  rw [readSlot_ok.mpr h0, orFault_ok, readSlot_ok.mpr h1, orFault_ok]

theorem complete_of_valid {s : State} {m : Measurement} (hv : checksumValid s.acc s.buf = .ok true)
    (hm : decodeFields s.buf s.inp.now = .ok m) : complete s = .next (s.clearAttempt.emit .ok (some m)) := by
  unfold complete
  rw [hv, orFault_ok, if_pos rfl, hm, orFault_ok]
  exact finish_next (by decide) _ _

theorem complete_of_invalid {s : State} (hv : checksumValid s.acc s.buf = .ok false) :
    complete s = .next (s.clearAttempt.emit .csumFail none) := by
  unfold complete
  rw [hv, orFault_ok, if_neg (by decide)]
  exact finish_next (by decide) _ _

/-- Every rule is executed: the converse of `exec_rule`. -/
theorem rule_exec {i : Instr} {s t : State} (h : Rule s i t) : exec i s = .next t := by
  cases h with
  | reset => rfl
  | cmd0 arg hp => exact (acceptCommand_idle hp).trans (finish_next (by decide) _ _)
  | connectTwice arg hp hs =>
    change execConnect arg s = _
    unfold execConnect
    rw [acceptCommand_idle hp]
    simp only [State.quiet_session, hs]
    exact finish_next (by decide) _ _
  | connectOpens arg hp hs hc =>
    change execConnect arg s = _
    unfold execConnect
    rw [acceptCommand_idle hp]
    simp only [State.quiet_session, hs, State.quiet_inp, hc]
    exact finish_next (by decide) _ _
  | connectFails arg hp hs hc =>
    change execConnect arg s = _
    unfold execConnect
    rw [acceptCommand_idle hp]
    simp only [State.quiet_session, hs, State.quiet_inp, hc]
    exact finish_next (by decide) _ _
  | disconnect arg hp =>
    rw [exec_disconnect, acceptCommand_idle hp]
    exact finish_next (by decide) _ _
  | readClosed arg hp hs =>
    change execRead arg s = _
    unfold execRead
    rw [acceptCommand_idle hp]
    simp only [State.quiet_session, hs]
    exact finish_next (by decide) _ _
  | readStarts arg hp hs =>
    change execRead arg s = _
    unfold execRead
    rw [acceptCommand_idle hp]
    simp only [State.quiet_session, hs]
  | headerByte b hp hl hn =>
    exact (channelEvent_hdr hp).trans ((rxHeader_of_slot (s := s.quiet) hl).trans (if_neg hn))
  | headerMatch b hp hn h0 h1 =>
    have hl : rxSlot s.quiet < Config.frameLen := by rw [rxSlot_quiet, hn]; decide
    refine (channelEvent_hdr hp).trans ((rxHeader_of_slot hl).trans ((if_pos hn).trans ?_))
    have g0 : Memory.slot (s.quiet.withByte b true).buf 0 = some Config.magic0 := by
      rw [State.withByte_buf, rxSlot_quiet, hn, Memory.slot_put_other _ _ (by decide)]; exact h0
    have g1 : Memory.slot (s.quiet.withByte b true).buf 1 = some b := by
      rw [State.withByte_buf, rxSlot_quiet, hn]; exact Memory.slot_put_same _ _ _
    exact (headerCheck_of_slots g0 g1).trans (if_pos ⟨rfl, h1⟩)
  | headerMismatch b b0 hp hn h0 h1 =>
    have hl : rxSlot s.quiet < Config.frameLen := by rw [rxSlot_quiet, hn]; decide
    refine (channelEvent_hdr hp).trans ((rxHeader_of_slot hl).trans ((if_pos hn).trans ?_))
    have g0 : Memory.slot (s.quiet.withByte b true).buf 0 = some b0 := by
      rw [State.withByte_buf, rxSlot_quiet, hn, Memory.slot_put_other _ _ (by decide)]; exact h0
    have g1 : Memory.slot (s.quiet.withByte b true).buf 1 = some b := by
      rw [State.withByte_buf, rxSlot_quiet, hn]; exact Memory.slot_put_same _ _ _
    exact (headerCheck_of_slots g0 g1).trans ((if_neg h1).trans (finish_next (by decide) _ _))
  | bodyByte b hp hl hn =>
    exact (channelEvent_body hp).trans ((rxBody_of_slot (s := s.quiet) hl).trans (if_neg hn))
  | frameValid b m hp hn hv hm =>
    have hl : rxSlot s.quiet < Config.frameLen := by rw [rxSlot_quiet, hn]; decide
    refine (channelEvent_body hp).trans ((rxBody_of_slot hl).trans ((if_pos hn).trans ?_))
    rw [rxSlot_quiet, hn, show decide (31 < Config.summedLen) = false from rfl]
    refine complete_of_valid ?_ ?_
    · rw [State.withByte_buf, State.withByte_acc, rxSlot_quiet, hn]; exact hv
    · rw [State.withByte_buf, State.withByte_inp, rxSlot_quiet, hn]; exact hm
  | frameInvalid b hp hn hv =>
    have hl : rxSlot s.quiet < Config.frameLen := by rw [rxSlot_quiet, hn]; decide
    refine (channelEvent_body hp).trans ((rxBody_of_slot hl).trans ((if_pos hn).trans ?_))
    rw [rxSlot_quiet, hn, show decide (31 < Config.summedLen) = false from rfl]
    refine complete_of_invalid ?_
    rw [State.withByte_buf, State.withByte_acc, rxSlot_quiet, hn]; exact hv
  | expire hp =>
    rcases hp with hp | hp
    · exact (channelEvent_hdr hp).trans (finish_next (by decide) _ _)
    · exact (channelEvent_body hp).trans (finish_next (by decide) _ _)
  | ioerr hp =>
    rcases hp with hp | hp
    · exact (channelEvent_hdr hp).trans (finish_next (by decide) _ _)
    · exact (channelEvent_body hp).trans (finish_next (by decide) _ _)

end Sys2Proof.Machine
end

