-- ==== Sys2Proof/Laws/Inv.lean ====
section
/-!
SUPPORT. Small facts about the invariant of R32: when it follows from bounded checks, and what carries it over.
-/

namespace Sys2Proof.Machine

/-- `slotSum` reads the slots below `k` only. -/
theorem slotSum_congr {m n : Memory} {k : Nat} (h : ∀ i, i < k → Memory.slot m i = Memory.slot n i) :
    slotSum m k = slotSum n k := by
  induction k with
  | zero => rfl
  | succ k ih => unfold slotSum; rw [h k (by omega), ih fun i hi => h i (by omega)]

/-- In IDLE the frame buffer is empty. -/
theorem State.Inv.buf_nil {s : State} (h : s.Inv) (hp : s.phase = .idle) : s.buf = [] :=
  Memory.ext_slots h.canonical rfl fun i => (h.idleBuf hp i).trans (Memory.slot_nil i).symm

/-- The count stays below 32 between steps (R22). -/
theorem State.Inv.cnt_lt {s : State} (h : s.Inv) : s.cnt.toNat < 32 := by
  cases hp : s.phase with
  | idle => rw [h.idleCnt hp]; decide
  | hdr => have := h.hdrCnt hp; omega
  | body => have := h.bodyCnt hp; omega
  | unused => exact absurd hp h.legalPhase

/-- The invariant is about the block alone. -/
theorem State.Inv.of_sameBlock {s u : State} (h : s.Inv) (hb : s.SameBlock u) : u.Inv := by
  obtain ⟨-, h1, h2, h3, h4, h5, -, -, -⟩ := hb
  obtain ⟨a1, a2, a3, a4, a5, a6, a7, a8, a9, a10, a11⟩ := h
  constructor <;> simp only [h1, h2, h3, h4, h5] <;> assumption

/-- A cleared state satisfies the invariant, whatever it was before. -/
theorem State.inv_ended (s : State) (st : Status) (m : Option Measurement) : (s.clearAttempt.emit st m).Inv := by
  constructor <;> simp [slotSum]

/-- The invariant from checks on the 32 slots: a canonical buffer holds nothing above them. -/
theorem State.inv_of_bounded {s : State} (canonical : Memory.wf s.buf = true) (legalPhase : s.phase ≠ .unused)
    (idleCnt : s.phase = .idle → s.cnt = 0#6) (idleAcc : s.phase = .idle → s.acc = 0#16)
    (hdrCnt : s.phase = .hdr → s.cnt.toNat ≤ 1) (bodyCnt : s.phase = .body → 2 ≤ s.cnt.toNat ∧ s.cnt.toNat ≤ 31)
    (bodyMagic : s.phase = .body →
      Memory.slot s.buf 0 = some Config.magic0 ∧ Memory.slot s.buf 1 = some Config.magic1)
    (filled : ∀ i, i < 32 → ((Memory.slot s.buf i).isSome = true ↔ i < s.cnt.toNat))
    (discIdle : s.session = .disc → s.phase = .idle)
    (accSum : s.acc = slotSum s.buf (min s.cnt.toNat Config.summedLen)) : s.Inv := by
  have hc : s.cnt.toNat ≤ 31 := by
    cases hp : s.phase with
    | idle => rw [idleCnt hp]; decide
    | hdr => have := hdrCnt hp; omega
    | body => exact (bodyCnt hp).2
    | unused => exact absurd hp legalPhase
  have hf : ∀ i, (Memory.slot s.buf i).isSome = true ↔ i < s.cnt.toNat := fun i => by
    by_cases hi : i < 32
    · exact filled i hi
    · rw [Memory.slot_above canonical (Nat.le_of_not_lt hi)]
      constructor
      · intro h; cases h
      · intro h; omega
  refine ⟨canonical, legalPhase, idleCnt, idleAcc, fun hp i => ?_, hdrCnt, bodyCnt, bodyMagic, hf, discIdle, accSum⟩
  have := hf i
  rw [idleCnt hp] at this
  simpa using this

end Sys2Proof.Machine
end

