-- ==== Sys2Proof/Laws/PerInstr.lean ====
section
/-!
SUPPORT. The family `Encoded` of LAWS.json: for every TMO_W, the encoding of an event is the bytes of its event word, which has no
bit above its lines, and every event whose `arg` has TMO_W bits is well formed.
-/

namespace Sys2Proof.Laws.Encoded

/-- The `arg` of a command; the other events have none. -/
def argOf : Instr → Option Ticks
  | .cmd0 arg => some arg
  | .connect arg => some arg
  | .disconnect arg => some arg
  | .read arg => some arg
  | .rx _ => none
  | .expire => none
  | .ioerr => none
  | .reset => none

/-- What the encoding of an event looks like. -/
def Statement (i : Instr) : Prop :=
  ∀ tmoW : Nat, (i.wellFormed tmoW = true ↔ ∀ arg, argOf i = some arg → arg < 2 ^ tmoW) ∧
    (encode tmoW i).length = eventBytes tmoW ∧ wordOfBytes (encode tmoW i) = encodeWord tmoW i

/-- The bytes of an event are those of its word. -/
theorem encode_bytes (tmoW : Nat) (i : Instr) :
    (encode tmoW i).length = eventBytes tmoW ∧ wordOfBytes (encode tmoW i) = encodeWord tmoW i :=
  ⟨length_bytesOfWord _ _, wordOfBytes_bytesOfWord (fits_eventBytes (fits_encodeWord tmoW i))⟩

theorem cmd0 (arg : Ticks) : Statement (.cmd0 arg) := fun w => ⟨by simp [Instr.wellFormed, argOf, fits_iff], encode_bytes w _⟩
theorem connect (arg : Ticks) : Statement (.connect arg) :=
  fun w => ⟨by simp [Instr.wellFormed, argOf, fits_iff], encode_bytes w _⟩
theorem disconnect (arg : Ticks) : Statement (.disconnect arg) :=
  fun w => ⟨by simp [Instr.wellFormed, argOf, fits_iff], encode_bytes w _⟩
theorem read (arg : Ticks) : Statement (.read arg) := fun w => ⟨by simp [Instr.wellFormed, argOf, fits_iff], encode_bytes w _⟩
theorem rx (b : Byte) : Statement (.rx b) := fun w => ⟨by simp [Instr.wellFormed, argOf], encode_bytes w _⟩
theorem expire : Statement .expire := fun w => ⟨by simp [Instr.wellFormed, argOf], encode_bytes w _⟩
theorem ioerr : Statement .ioerr := fun w => ⟨by simp [Instr.wellFormed, argOf], encode_bytes w _⟩
theorem reset : Statement .reset := fun w => ⟨by simp [Instr.wellFormed, argOf], encode_bytes w _⟩

end Sys2Proof.Laws.Encoded
end

