-- ==== Sys2Proof/Tests/Slice0.lean ====
section
/-!
SUPPORT. Tests: ill-formed lines refused, the words of the spec decoded, the vectors of 95_test_vectors.md for one step each, and a
witness for the hypotheses of every statement. Expected values come from spec/, by the row named in each comment.
-/

namespace Sys2Proof.Tests

open Sys2Proof Sys2Proof.Machine

/-! ## WellFormed: one ill-formed term for each check (R5, R61, R63, R70) -/

/-- Twenty filler bytes. -/
def fill20 : List Byte := List.replicate 20 0#8

theorem test_wf_params : Params.ofTable.legal = true := by decide
theorem test_wf_params_tmoW : ({ tmoW := 0, tsW := 64 } : Params).legal = false := by decide
theorem test_wf_params_tsW : ({ tmoW := 16, tsW := 0 } : Params).legal = false := by decide
theorem test_wf_arg : (Instr.connect 255).wellFormed 8 = true ∧ (Instr.connect 256).wellFormed 8 = false ∧
    (Instr.cmd0 256).wellFormed 8 = false ∧ (Instr.disconnect 256).wellFormed 8 = false ∧
    (Instr.read 256).wellFormed 8 = false := by decide
theorem test_wf_connect : (Line.connect 65536 true).wellFormed .ofTable = false := by decide
theorem test_wf_now : (Line.rx 0 256).wellFormed { tmoW := 16, tsW := 8 } = false := by decide
theorem test_wf_frame : (Line.frame 10 25 40 (some fill20) 0).wellFormed .ofTable = true := by decide
theorem test_wf_frame_default : (Line.frame 10 25 40 none 0).wellFormed .ofTable = true := by decide
theorem test_wf_frame_first : (Line.frame 65536 25 40 none 0).wellFormed .ofTable = false := by decide
theorem test_wf_frame_second : (Line.frame 10 65536 40 none 0).wellFormed .ofTable = false := by decide
theorem test_wf_frame_third : (Line.badframe 10 25 65536 none 0).wellFormed .ofTable = false := by decide
theorem test_wf_frame_fill : (Line.frame 10 25 40 (some [0#8]) 0).wellFormed .ofTable = false := by decide
theorem test_wf_rxs_empty : (Line.rxs [] 0).wellFormed .ofTable = false := by decide

/-! ## Decoding: words written out from R61, R62 and spec/opcode_table.json -/

theorem test_decode_connect : decodeCommand 16 0b01_0000001111101000 = .connect 1000 := by decide
theorem test_decode_disconnect : decodeCommand 16 0b10_0000000000000000 = .disconnect 0 := by decide
theorem test_decode_read : decodeCommand 16 0b11_0000000000000101 = .read 5 := by decide
theorem test_decode_cmd0 : decodeCommand 16 0b00_1111111111111111 = .cmd0 0xFFFF := by decide
/-- R61 with TMO_W = 8: `op` is bits 9..8. -/
theorem test_decode_connect_w8 : decodeCommand 8 0b01_00110010 = .connect 50 := by decide
/-- TMO_W = 8: payload 10 bits, `rx_valid` bit 10, two bytes. -/
theorem test_decode_rx_w8 : decode 8 [0x42#8, 0x04#8] = .ok (.rx 0x42#8, []) := by decide
/-- TMO_W = 1: a command word of 3 bits, so bits 7..3 of a command's payload are stray. -/
theorem test_decode_w1 : decode 1 [0b110#8, 0x00#8] = .ok (.read 0, []) ∧ decode 1 [0x0E#8, 0x00#8] = .error .strayBits := by
  decide
theorem test_decode_rx : decode 16 [0x42#8, 0x00#8, 0x04#8] = .ok (.rx 0x42#8, []) := by decide
theorem test_decode_eof : decode 16 [0x00#8, 0x00#8, 0x08#8] = .ok (.expire, []) := by decide
theorem test_decode_window_end : decode 16 [0x00#8, 0x00#8, 0x40#8] = .ok (.expire, []) := by decide
theorem test_decode_ioerr : decode 16 [0x00#8, 0x00#8, 0x10#8] = .ok (.ioerr, []) := by decide
theorem test_decode_reset : decode 16 [0x00#8, 0x00#8, 0x20#8, 0x77#8] = .ok (.reset, [0x77#8]) := by decide
theorem test_decode_short : decode 16 [0x00#8, 0x00#8] = .error .tooShort := by decide
theorem test_decode_two_lines : decode 16 [0x00#8, 0x00#8, 0x0C#8] = .error .severalEvents := by decide
theorem test_decode_bit23 : decode 16 [0x00#8, 0x00#8, 0x80#8] = .error .reservedBit := by decide
theorem test_decode_stray : decode 16 [0x01#8, 0x00#8, 0x20#8] = .error .strayBits := by decide
theorem test_decode_rx_stray : decode 16 [0x42#8, 0x01#8, 0x04#8] = .error .strayBits := by decide

/-! ## Small states -/

/-- Connected and idle. -/
def idleConn : State := { State.reset with session := .conn, tmo := some 50 }

/-- Connected and idle, the channel answering an open. -/
def idleDisc (ok : Bool) : State := { State.reset with inp := { chOk := ok, now := 0 } }

/-- The bytes as cells from index `k` on. -/
def cells : Nat → List Byte → Memory
  | _, [] => []
  | k, b :: bs => (k, b) :: cells (k + 1) bs

/-- An attempt that has taken the bytes `bs`, in the given phase. -/
def inAttempt (p : Phase) (bs : List Byte) : State :=
  { idleConn with phase := p, cnt := BitVec.ofNat 6 bs.length, buf := cells 0 bs,
                  acc := slotSum (cells 0 bs) (min bs.length 30) }

/-- An environment whose channel shows `o`. -/
def showing (o : List ChanOffer) : Env := { host := [], chan := o, rst := [] }

/-- Bytes 0 to 30 of frame F of 95_test_vectors.md; byte 31 is 0xF6. -/
def f31 : List Byte :=
  [0x42#8, 0x4D#8, 0x00#8, 0x1C#8, 0x00#8, 0x0A#8, 0x00#8, 0x19#8, 0x00#8, 0x28#8] ++ List.replicate 21 0#8

/-- Frame F. -/
def frameF : List Byte := f31 ++ [0xF6#8]

/-- The next state's field, if there is a next state. -/
def after {α : Type} (o : Out) (f : State → α) : Option α :=
  match o with
  | .next t => some (f t)
  | .fault _ => none
  | .refused _ => none

/-! ## One step each (95_test_vectors.md section 2) -/

/-- SC8. -/
theorem test_cmd0 : after (exec (.cmd0 7) idleConn) (fun t => (t.session, t.last)) =
    some (.conn, some { status := .badCmd, meas := none }) := by decide
/-- SC1. -/
theorem test_connect_ok : after (exec (.connect 1000) (idleDisc true)) (fun t => (t.session, t.tmo, t.last)) =
    some (.conn, some 1000, some { status := .ok, meas := none }) := by decide
/-- SC2. -/
theorem test_connect_fail : after (exec (.connect 1000) (idleDisc false)) (fun t => (t.session, t.tmo, t.last)) =
    some (.disc, none, some { status := .connError, meas := none }) := by decide
/-- SC3. -/
theorem test_connect_twice : after (exec (.connect 60) idleConn) (fun t => (t.session, t.tmo, t.last)) =
    some (.conn, some 50, some { status := .lifecycleError, meas := none }) := by decide
/-- SC4, SC5. -/
theorem test_disconnect : after (exec (.disconnect 0) idleConn) (fun t => (t.session, t.tmo)) = some (.disc, some 50) := by
  decide
/-- SC6. -/
theorem test_read_disc : after (exec (.read 0) State.reset) (fun t => (t.phase, t.last)) =
    some (.idle, some { status := .lifecycleError, meas := none }) := by decide
/-- SC7. -/
theorem test_read_conn : after (exec (.read 0) idleConn) (fun t => (t.phase, t.cnt, t.acc, t.resValid)) =
    some (.hdr, 0, 0, false) := by decide
/-- R101, the example: `RX 42` with `cnt == 0`. -/
theorem test_rx_first : after (exec (.rx 0x42) (inAttempt .hdr [])) (fun t => (t.phase, t.cnt, t.acc, t.buf)) =
    some (.hdr, 1, 0x0042, [(0, 0x42)]) := by decide
/-- HD1. -/
theorem test_rx_match : after (exec (.rx 0x4D) (inAttempt .hdr [0x42])) (fun t => (t.phase, t.cnt, t.acc)) =
    some (.body, 2, 0x008F) := by decide
/-- HD7: the second byte is taken even after a bad first one. -/
theorem test_rx_mismatch : after (exec (.rx 0x4D) (inAttempt .hdr [0x00])) (fun t => (t.phase, t.last)) =
    some (.idle, some { status := .syncFail, meas := none }) := by decide
/-- R104, the example: byte 30 is stored and not added. -/
theorem test_rx_byte30 : after (exec (.rx 0xFF) (inAttempt .body (f31.take 30))) (fun t => (t.cnt, t.acc)) =
    some (31, 0x00F6) := by decide
/-- BD3, W5: frame F, with `now` 0. -/
theorem test_rx_frame : after (exec (.rx 0xF6) (inAttempt .body f31)) (fun t => t.last) =
    some (some
      { status := .ok,
        meas := some { pm1Raw := 10, pm25Raw := 25, pm10Raw := 40, pm1 := 0x3FF0000000000000, pm25 := 0x4004000000000000,
                       pm10 := 0x4010000000000000, capturedAt := 0 } }) := by decide
/-- CS2, W6. -/
theorem test_rx_bad_frame : after (exec (.rx 0x09) (inAttempt .body f31)) (fun t => t.last) =
    some (some { status := .csumFail, meas := none }) := by decide
/-- BD2, W7: 31 bytes are in. -/
theorem test_expire : after (exec .expire (inAttempt .body f31)) (fun t => (t.session, t.last)) =
    some (.conn, some { status := .syncFail, meas := none }) := by decide
/-- HD11. -/
theorem test_ioerr : after (exec .ioerr (inAttempt .hdr [0x42])) (fun t => (t.session, t.last)) =
    some (.conn, some { status := .ioError, meas := none }) := by decide
/-- RS1. -/
theorem test_reset : exec .reset (inAttempt .body [0x42, 0x4D]) = .next State.reset := rfl
/-- SC9: the pending command stays, and the step takes the channel's event. -/
theorem test_step_busy :
    after (step { inAttempt .hdr [] with
      env := { host := [{ word := 0x30000, chOk := false }], chan := [.byte 0x42 7], rst := [] } })
      (fun t => (t.cnt, t.inp.now, t.env.host.length, t.env.chan.length)) = some (1, 7, 1, 0) := by decide
/-- R101 after reset: the placed word is the one the very next step runs. -/
theorem test_placed_connect : after (step (State.reset.withFetchWord 24 0x103E8)) (fun t => t.last) =
    some (some { status := .connError, meas := none }) := by decide

/-- R60, R81: in a machine of TMO_W 8 and TS_W 8, `op` is bits 9..8 of the command word, and `now` has 8 bits. -/
theorem test_step_w8 :
    after (step { State.resetWith { tmoW := 8, tsW := 8 } with
      env := { host := [{ word := 0b01_00110010, chOk := true }], chan := [], rst := [] } }) (fun t => t.tmo) =
      some (some 50) ∧
    after (step { inAttempt .hdr [] with params := { tmoW := 8, tsW := 8 }, env := showing [.byte 0x42 0x12C] })
      (fun t => t.inp.now) = some 0x2C := by decide

/-! ## The scaler (V-D) -/

theorem test_f64_1 : f64Div10 1 = 0x3FB999999999999A := by decide
theorem test_f64_3 : f64Div10 3 = 0x3FD3333333333333 := by decide
theorem test_f64_99 : f64Div10 99 = 0x4023CCCCCCCCCCCD := by decide
theorem test_f64_32768 : f64Div10 32768 = 0x40A999999999999A := by decide
theorem test_f64_65535 : f64Div10 65535 = 0x40B9998000000000 := by decide
/-- CS4: the byte order of the checksum field matters. -/
theorem test_be16 : be16 0x11 0xD7 = 4567 := by decide

/-! ## Witnesses: the hypotheses of every statement are met -/

theorem inv_reset : State.reset.Inv := by
  refine State.inv_of_bounded ?_ ?_ ?_ ?_ ?_ ?_ ?_ ?_ ?_ ?_ <;> decide

theorem inv_idleConn : idleConn.Inv := by
  refine State.inv_of_bounded ?_ ?_ ?_ ?_ ?_ ?_ ?_ ?_ ?_ ?_ <;> decide

theorem inv_hdr0 : (inAttempt .hdr []).Inv := by
  refine State.inv_of_bounded ?_ ?_ ?_ ?_ ?_ ?_ ?_ ?_ ?_ ?_ <;> decide

theorem inv_hdr1 : (inAttempt .hdr [0x42#8]).Inv := by
  refine State.inv_of_bounded ?_ ?_ ?_ ?_ ?_ ?_ ?_ ?_ ?_ ?_ <;> decide

theorem inv_body2 : (inAttempt .body [0x42#8, 0x4D#8]).Inv := by
  refine State.inv_of_bounded ?_ ?_ ?_ ?_ ?_ ?_ ?_ ?_ ?_ ?_ <;> decide

theorem inv_body31 : (inAttempt .body f31).Inv := by
  refine State.inv_of_bounded ?_ ?_ ?_ ?_ ?_ ?_ ?_ ?_ ?_ ?_ <;> decide

/-- A state with another environment satisfies the invariant as well. -/
theorem inv_env {s : State} (h : s.Inv) (e : Env) : ({ s with env := e } : State).Inv :=
  h.of_sameBlock ⟨rfl, rfl, rfl, rfl, rfl, rfl, rfl, rfl, rfl⟩

theorem noReset_of_nil {s : State} (h : s.env.rst = []) : s.NoReset := fun x hx => by rw [h] at hx; cases hx

theorem slots_f31 : ∀ i, i < 31 → Memory.slot (inAttempt .body f31).buf i = some (f31.getD i 0#8) := by decide

theorem resultInv_reset : State.reset.ResultInv := ⟨fun _ h => (nomatch h), fun h => (nomatch h)⟩

theorem witness_ResetComesFirst : ({ State.reset with env := { host := [], chan := [], rst := [true] } } : State).rstNow = true := rfl

theorem witness_Cmd0GivesBadCommand :
    cmdOp 16 0x00005 = 0b00#2 ∧ idleConn.phase = .idle ∧ idleConn.Inv := ⟨by decide, rfl, inv_idleConn⟩

theorem witness_ConnectOpensTheChannel :
    cmdOp 16 0x10000 = 0b01#2 ∧ (idleConn.phase = .idle ∧ idleConn.session = .conn ∧ idleConn.Inv) ∧
    ((idleDisc true).phase = .idle ∧ (idleDisc true).session = .disc ∧ (idleDisc true).inp.chOk = true) ∧
    ((idleDisc false).phase = .idle ∧ (idleDisc false).session = .disc ∧ (idleDisc false).inp.chOk = false ∧
      (idleDisc false).Inv) :=
  ⟨by decide, ⟨rfl, rfl, inv_idleConn⟩, ⟨rfl, rfl, rfl⟩, rfl, rfl, rfl, inv_reset⟩

theorem witness_DisconnectClosesTheSession :
    cmdOp 16 0x20000 = 0b10#2 ∧ (State.reset.phase = .idle ∧ State.reset.Inv ∧ State.reset.session = .disc) ∧
    (inAttempt .hdr []).phase = .hdr ∧ (inAttempt .body f31).phase = .body :=
  ⟨by decide, ⟨rfl, inv_reset, rfl⟩, rfl, rfl⟩

theorem witness_ReadStartsAnAttempt :
    cmdOp 16 0x30000 = 0b11#2 ∧ (idleConn.phase = .idle ∧ idleConn.session = .conn) ∧
    State.reset.phase = .idle ∧ State.reset.session = .disc ∧ State.reset.Inv :=
  ⟨by decide, ⟨rfl, rfl⟩, rfl, rfl, inv_reset⟩

theorem witness_RxInHeaderPhase :
    ((inAttempt .hdr []).phase = .hdr ∧ (inAttempt .hdr []).cnt = 0#6) ∧
    ((inAttempt .hdr [0x42]).phase = .hdr ∧ (inAttempt .hdr [0x42]).cnt = 1#6 ∧
      Memory.slot (inAttempt .hdr [0x42]).buf 0 = some 0x42#8) ∧
    ((inAttempt .hdr [0x4D]).cnt = 1#6 ∧ Memory.slot (inAttempt .hdr [0x4D]).buf 0 = some 0x4D#8 ∧
      ¬((0x4D#8 : Byte) = 0x42#8 ∧ (0x42#8 : Byte) = 0x4D#8)) := by decide

/-- The ends of the range, and the two indices where the sum stops. -/
theorem witness_RxInBodyPhase :
    ∀ n ∈ [2, 29, 30], (inAttempt .body (f31.take n)).phase = .body ∧ 2 ≤ (inAttempt .body (f31.take n)).cnt.toNat ∧
      (inAttempt .body (f31.take n)).cnt.toNat ≤ 30 := by decide

theorem witness_RxCompletesTheFrame :
    (inAttempt .body f31).phase = .body ∧ (inAttempt .body f31).cnt = 31#6 ∧
    (∀ i, i < 31 → Memory.slot (inAttempt .body f31).buf i = some (f31.getD i 0#8)) ∧
    (inAttempt .body f31).acc = be16 (f31.getD 30 0#8) 0xF6#8 ∧
    (inAttempt .body f31).acc ≠ be16 (f31.getD 30 0#8) 0x09#8 :=
  ⟨rfl, by decide, slots_f31, by decide, by decide⟩

theorem witness_ExpireEndsTheAttempt : (inAttempt .hdr []).phase = .hdr ∧ (inAttempt .body f31).phase = .body := ⟨rfl, rfl⟩

theorem witness_IoerrEndsTheAttempt :
    (inAttempt .hdr []).phase = .hdr ∧ (inAttempt .body f31).phase = .body ∧ idleConn.phase = .idle := ⟨rfl, rfl, rfl⟩

theorem witness_DisabledEventsHaveNoStep :
    (inAttempt .hdr []).phase = .hdr ∧ (inAttempt .body f31).phase = .body ∧ idleConn.phase = .idle := ⟨rfl, rfl, rfl⟩

theorem witness_EnabledEventsComplete :
    (idleConn.Inv ∧ idleConn.Enabled (.read 0)) ∧ ((inAttempt .hdr []).Inv ∧ (inAttempt .hdr []).Enabled (.rx 0)) ∧
    ((inAttempt .body f31).Inv ∧ (inAttempt .body f31).Enabled (.rx 0)) ∧ (idleConn.Inv ∧ idleConn.Enabled .reset) :=
  ⟨⟨inv_idleConn, rfl⟩, ⟨inv_hdr0, .inl rfl⟩, ⟨inv_body31, .inr rfl⟩, inv_idleConn, trivial⟩

theorem witness_UnusedPhaseFaults :
    exec .reset (inAttempt .unused []) = .next State.reset ∧ (inAttempt .unused []).phase = .unused ∧
    Instr.expire ≠ Instr.reset ∧ (inAttempt .unused []).rstNow = false := ⟨rfl, rfl, by decide, rfl⟩

theorem witness_StepRunsTheCommand :
    let s : State := { idleConn with env := { host := [{ word := 0x30000, chOk := false }], chan := [], rst := [] } }
    s.phase = .idle ∧ s.rstNow = false ∧ s.env.host = { word := 0x30000, chOk := false } :: [] := ⟨rfl, rfl, rfl⟩

theorem witness_StepRunsTheChannelEvent :
    ∀ o : ChanOffer, ({ inAttempt .hdr [] with env := showing [o] } : State).phase = .hdr ∧
      ({ inAttempt .hdr [] with env := showing [o] } : State).rstNow = false ∧
      ({ inAttempt .hdr [] with env := showing [o] } : State).env.chan = o :: [] := fun _ => ⟨rfl, rfl, rfl⟩

theorem witness_StepWithoutOffer :
    ((inAttempt .hdr []).rstNow = false ∧ (inAttempt .hdr []).phase = .hdr ∧ (inAttempt .hdr []).env.chan = []) ∧
    (idleConn.rstNow = false ∧ idleConn.phase = .idle ∧ idleConn.env.host = [] ∧ idleConn.NoReset) ∧
    ({ idleConn with env := { host := [], chan := [], rst := [false, true] } } : State).rstNow = false ∧
    [false, true] = List.replicate 1 false ++ true :: [] :=
  ⟨⟨rfl, rfl, rfl⟩, ⟨rfl, rfl, rfl, noReset_of_nil rfl⟩, rfl, rfl⟩

/-- In the table's machine, and in one of TMO_W 8 whose `arg` holds the word's. -/
theorem witness_PlacedWordRunsNext :
    decodeTableWord 24 0x10032 = some (.connect 50) ∧ State.reset.params.tmoW = Config.tableTmoW ∧
    (Instr.connect 50).wellFormed (State.resetWith { tmoW := 8, tsW := 8 }).params.tmoW = true ∧
    State.reset.Enabled (.connect 50) ∧ fits State.reset.params.tsW State.reset.inp.now = true :=
  ⟨by decide, rfl, by decide, rfl, by decide⟩

theorem witness_OffersAreTakenInOrder :
    (after (step { idleConn with env := { host := [{ word := 0x30000, chOk := false }], chan := [], rst := [] } })
      (fun t => t.env.host.length) = some 0) ∧
    after (step { inAttempt .hdr [] with env := showing [.byte 0x42 0] }) (fun t => t.env.chan.length) = some 0 := by decide

theorem witness_DecodeAfterEncode : (Instr.connect 5).wellFormed 16 = true ∧ (Instr.rx 0).wellFormed 1 = true := by decide

theorem witness_EncodeAfterDecode : (0x3FFFF : Nat) < 2 ^ (16 + 2) ∧ decodeWord 16 0x040042 = .ok (.rx 0x42) ∧ Instr.rx 0x42 ≠ .expire := by decide

theorem witness_OutputsFollowTheState :
    State.reset.last = none ∧
    ({ idleConn with last := some { status := .badCmd, meas := none } } : State).last =
      some { status := .badCmd, meas := none } ∧
    ({ idleConn with last := some { status := .ok, meas := some (frameMeasurement frameF 0) } } : State).last =
      some { status := .ok, meas := some (frameMeasurement frameF 0) } := ⟨rfl, rfl, rfl⟩

theorem witness_BigEndianPairs :
    Memory.slot (inAttempt .body f31).buf 6 = some 0x00#8 ∧ Memory.slot (inAttempt .body f31).buf 7 = some 0x19#8 := by decide

theorem witness_StepKeepsInvariant :
    ({ inAttempt .hdr [0x42#8] with env := showing [.byte 0x4D 0] } : State).Inv ∧
    after (step { inAttempt .hdr [0x42#8] with env := showing [.byte 0x4D 0] }) (fun t => t.phase) = some .body :=
  ⟨inv_env inv_hdr1 _, by decide⟩

theorem witness_StepKeepsResultSound :
    ({ State.reset with env := { host := [{ word := 0x00000, chOk := false }], chan := [], rst := [] } } : State).ResultInv ∧
    after (step { State.reset with env := { host := [{ word := 0x00000, chOk := false }], chan := [], rst := [] } })
      (fun t => t.resValid) = some true := ⟨resultInv_reset, by decide⟩

/-- With legal widths the reset state keeps its bounds, and from it a CONNECT answers a next state. -/
theorem widthInv_reset (e : Env) : ({ State.reset with env := e } : State).WidthInv :=
  ⟨rfl, fun _ h => (nomatch h), rfl, fun _ _ h => (nomatch h)⟩

theorem witness_ResetStateSatisfiesInvariants :
    Params.ofTable.legal = true ∧ fits Params.ofTable.tsW ({ chOk := true, now := 7 } : Inputs).now = true := by decide

theorem witness_StepKeepsWidths :
    let s : State := { State.reset with env := { host := [{ word := 0x10032, chOk := true }], chan := [], rst := [] } }
    s.WidthInv ∧ after (step s) (fun t => t.tmo) = some (some 50) := ⟨widthInv_reset _, by decide⟩

theorem witness_StepKeepsBufferCanonical :
    Memory.wf (inAttempt .hdr [0x42]).buf = true ∧
    after (step { inAttempt .hdr [0x42] with env := showing [.byte 0x4D 0] }) (fun t => t.buf.length) = some 2 := by decide

/-- Two steps from reset: CONNECT and READ. -/
theorem witness_ReachableStatesSatisfyInvariants :
    after (steps 2 { State.reset with
      env := { host := [{ word := 0x10032, chOk := true }, { word := 0x30000, chOk := true }], chan := [], rst := [] },
      inp := { chOk := false, now := 0 } }) (fun t => t.phase) = some .hdr := by decide

theorem witness_BytesEnterOnlyByRx :
    after (exec (.rx 0x42) (inAttempt .hdr [])) (fun t => Memory.slot t.buf 0) = some (some 0x42) := by decide

theorem witness_SessionAndTimeoutWriters :
    after (exec (.connect 5) (idleDisc true)) (fun t => (t.session, t.tmo)) = some (.conn, some 5) := by decide

theorem witness_ResultsComeFromCompletion :
    after (exec (.rx 0xF6) (inAttempt .body f31)) (fun t => (t.resValid, t.lastMeas.isSome)) = some (true, true) ∧
    after (exec (.read 0) idleConn) (fun t => t.resValid) = some false := by decide

theorem witness_ShortAttemptsAreNotValidated :
    (inAttempt .body f31).phase = .body ∧
    after (exec (.rx 0x09) (inAttempt .body f31)) (fun t => (t.resValid, t.last)) =
      some (true, some { status := .csumFail, meas := none }) := by decide

theorem witness_NowMattersOnlyToAMeasurement :
    after (exec (.rx 0x09) (inAttempt .body f31)) (fun t => (t.resValid, t.lastMeas)) = some (true, none) := by decide

theorem witness_TimeoutIsNotRead : after (exec (.read 0) idleConn) (fun t => t.tmo) = some (some 50) := by decide

theorem witness_WidthsChangeNoRule : after (exec (.connect 5) (idleDisc true)) (fun t => t.tmo) = some (some 5) := by decide

theorem witness_CompletionChecksTheFrame :
    (inAttempt .body f31).Inv ∧ (inAttempt .body f31).phase = .body ∧ f31.length = 31 ∧
    (∀ i, i < 31 → Memory.slot (inAttempt .body f31).buf i = some (f31.getD i 0#8)) :=
  ⟨inv_body31, rfl, by decide, slots_f31⟩

/-- CS8 and CS11: a field above the range, and a field below it. -/
theorem witness_ChecksumRange :
    (inAttempt .body f31).Inv ∧ (inAttempt .body f31).phase = .body ∧ (inAttempt .body f31).cnt = 31#6 ∧
    Memory.slot (inAttempt .body f31).buf 30 = some 0x00#8 ∧ (be16 0x00#8 0x00#8).toNat < 0x008F ∧
    0x1C73 < (be16 0xFF#8 0xFF#8).toNat := ⟨inv_body31, rfl, by decide, by decide, by decide, by decide⟩

theorem valid_frameF : frameValid frameF := by unfold frameValid; decide

theorem witness_OneChangedByteIsCaught : frameValid frameF ∧ (31 : Nat) < 32 ∧ (0x09#8 : Byte) ≠ frameF.getD 31 0#8 :=
  ⟨valid_frameF, by decide, by decide⟩

/-- Two valid frames that agree on bytes 4 to 9: F, and F with 1 in byte 29. -/
theorem witness_UndecodedBytesDoNotMatter :
    let s := inAttempt .body f31
    let s' := inAttempt .body (f31.set 29 0x01)
    s.phase = .body ∧ s'.phase = .body ∧ s.cnt = 31#6 ∧ s'.cnt = 31#6 ∧
    (∀ a, a ≤ 9 → 4 ≤ a → Memory.slot s.buf a = Memory.slot s'.buf a) ∧ s.inp.now = s'.inp.now ∧
    after (exec (.rx 0xF6) s) (fun t => t.resMeasValid) = some true ∧
    after (exec (.rx 0xF7) s') (fun t => t.resMeasValid) = some true := by decide

theorem witness_ScalerGivesTheNearestFloat : f64Finite 0x3FB999999999999A#64 := by
  unfold f64Finite f64Exponent; decide

theorem witness_ScalerProperties : (1#16 : Half) ≠ 0#16 ∧ (1#16 : Half).toNat < (2#16 : Half).toNat := by decide

/-- The bytes with the draws `k`, `k + 1`, ...: each byte's differs from the others'. -/
def drawn : Nat → List Byte → List (Byte × Timestamp)
  | _, [] => []
  | k, b :: bs => (b, k) :: drawn (k + 1) bs

/-- Before the attempt, with frame F in the channel and after it the end of the stream. -/
def beforeF : State := { inAttempt .hdr [] with env := showing (byteOffers (drawn 0 f31 ++ [(0xF6, 99)]) ++ [.eof]) }

theorem witness_FrameOfThirtyTwoBytesIsJudged :
    beforeF.Inv ∧ beforeF.phase = .hdr ∧ beforeF.cnt = 0#6 ∧ beforeF.NoReset ∧ (drawn 0 f31).length = 31 ∧
    frameF = (drawn 0 f31).map Prod.fst ++ [0xF6#8] ∧ frameF.getD 0 0#8 = 0x42#8 ∧ frameF.getD 1 0#8 = 0x4D#8 ∧
    beforeF.env.chan = byteOffers (drawn 0 f31 ++ [(0xF6, 99)]) ++ [.eof] :=
  ⟨inv_env inv_hdr0 _, rfl, rfl, noReset_of_nil rfl, by decide, by decide, by decide, by decide, rfl⟩

/-- HD7. -/
theorem witness_BadHeaderTakesTwoBytes :
    let s : State := { inAttempt .hdr [] with env := showing [.byte 0x00 0, .byte 0x4D 0, .eof] }
    s.Inv ∧ s.phase = .hdr ∧ s.cnt = 0#6 ∧ s.NoReset ∧ s.env.chan = .byte 0x00 0 :: .byte 0x4D 0 :: [.eof] ∧
    ¬((0x00#8 : Byte) = 0x42#8 ∧ (0x4D#8 : Byte) = 0x4D#8) :=
  ⟨inv_env inv_hdr0 _, rfl, rfl, noReset_of_nil rfl, rfl, by decide⟩

/-- Both branches: frame F, and 32 bytes that begin 4D 42 (HD2). -/
theorem witness_AttemptsTakeTwoBytesOrThirtyTwo :
    let good := drawn 0 frameF
    let bad := drawn 5 ([0x4D#8, 0x42#8] ++ List.replicate 30 0x07#8)
    let s : State := { inAttempt .hdr [] with env := showing (byteOffers good ++ []) }
    let s' : State := { inAttempt .hdr [] with env := showing (byteOffers bad ++ []) }
    (s.Inv ∧ s.phase = .hdr ∧ s.cnt = 0#6 ∧ s.NoReset ∧ good.length = 32 ∧ s.env.chan = byteOffers good ++ [] ∧
      ((good.map Prod.fst).getD 0 0#8 = 0x42#8 ∧ (good.map Prod.fst).getD 1 0#8 = 0x4D#8)) ∧
    s'.Inv ∧ s'.phase = .hdr ∧ s'.cnt = 0#6 ∧ s'.NoReset ∧ bad.length = 32 ∧ s'.env.chan = byteOffers bad ++ [] ∧
      ¬((bad.map Prod.fst).getD 0 0#8 = 0x42#8 ∧ (bad.map Prod.fst).getD 1 0#8 = 0x4D#8) :=
  ⟨⟨inv_env inv_hdr0 _, rfl, rfl, noReset_of_nil rfl, by decide, rfl, by decide⟩, inv_env inv_hdr0 _, rfl, rfl,
    noReset_of_nil rfl, by decide, rfl, by decide⟩

/-- BD5. -/
theorem witness_WindowRaceHasBothOutcomes :
    let s : State := { inAttempt .body f31 with env := showing [.byte 0xF6 0, .windowEnd] }
    let s' : State := { inAttempt .body f31 with env := showing [.windowEnd, .byte 0xF6 0] }
    (s.Inv ∧ s.phase = .body ∧ s.cnt = 31#6 ∧ s.NoReset ∧ s.env.chan = .byte 0xF6 0 :: .windowEnd :: []) ∧
    s'.Inv ∧ s'.phase = .body ∧ s'.cnt = 31#6 ∧ s'.NoReset ∧ s'.env.chan = .windowEnd :: .byte 0xF6 0 :: [] :=
  ⟨⟨inv_env inv_body31 _, rfl, by decide, noReset_of_nil rfl, rfl⟩, inv_env inv_body31 _, rfl, by decide,
    noReset_of_nil rfl, rfl⟩

/-- In HDR with nothing in the channel, and in BODY before the 32nd byte. -/
theorem witness_EveryAttemptEnds :
    ((inAttempt .hdr [0x42#8]).Inv ∧ (inAttempt .hdr [0x42#8]).phase = .hdr ∧ (inAttempt .hdr [0x42#8]).NoReset) ∧
    let s : State := { inAttempt .body f31 with env := showing [.byte 0xF6 7, .eof] }
    s.Inv ∧ s.phase = .body ∧ s.NoReset :=
  ⟨⟨inv_hdr1, rfl, noReset_of_nil rfl⟩, inv_env inv_body31 _, rfl, noReset_of_nil rfl⟩

/-- Each of the four commands: CMD0, CONNECT, DISCONNECT and READ before a connected block. -/
theorem witness_EveryCommandGetsOneResult :
    ∀ w ∈ [0x00000, 0x10032, 0x20000, 0x30000],
      let s : State := { idleConn with env := { host := [{ word := w, chOk := true }], chan := [], rst := [] } }
      s.Inv ∧ s.phase = .idle ∧ s.NoReset ∧ s.env.host = { word := w, chOk := true } :: [] :=
  fun _ _ => ⟨inv_env inv_idleConn _, rfl, noReset_of_nil rfl, rfl⟩

/-- FRAME with its `f` bytes written, and with the default. -/
theorem witness_FrameLinesExpand :
    (Line.frame 123 4567 65535 (some fill20) 7).wellFormed .ofTable = true ∧
    (Line.frame 10 25 40 none 7).wellFormed .ofTable = true := by decide

/-- Frame F of 95_test_vectors.md is `FRAME 10 25 40`, its `f` bytes the default. -/
theorem test_frame_default : frameBytes 10 25 40 none = frameF := by decide

/-- W6: `BADFRAME 10 25 40` ends with 09. -/
theorem test_badframe : badFrameBytes 10 25 40 none = f31 ++ [0x09#8] := by decide

end Sys2Proof.Tests
end

section
/-!
PROOFS. The scope family: a pair of bytes as a big-endian 16-bit field (R9).
-/

namespace Sys2Proof.Machine

/-- The two bytes fill disjoint halves, so the model's `|||` is a sum. -/
theorem be16_toNat (hi lo : Byte) : (be16 hi lo).toNat = hi.toNat * 256 + lo.toNat := by
  have hhi : hi.toNat < 2 ^ 8 := hi.isLt
  have hlo : lo.toNat < 2 ^ 8 := lo.isLt
  have hfit : (hi.toNat <<< 8) % 2 ^ 16 = hi.toNat <<< 8 :=
    Nat.mod_eq_of_lt (by rw [Nat.shiftLeft_eq]; omega)
  calc (be16 hi lo).toNat = hi.toNat <<< 8 ||| lo.toNat := by
        rw [be16, BitVec.toNat_or, BitVec.toNat_shiftLeft, BitVec.toNat_setWidth_of_le (by decide),
          BitVec.toNat_setWidth_of_le (by decide), hfit]
    _ = hi.toNat <<< 8 + lo.toNat := (Nat.shiftLeft_add_eq_or_of_lt hlo _).symm
    _ = hi.toNat * 256 + lo.toNat := by rw [Nat.shiftLeft_eq]

theorem be16At_of_slots {m : Memory} {i : Nat} {hi lo : Byte} (hhi : Memory.slot m i = some hi)
    (hlo : Memory.slot m (i + 1) = some lo) : be16At m i = .ok (be16 hi lo) :=
  be16At_ok.mpr ⟨hi, lo, hhi, hlo, rfl⟩

/-- Settles O26: the value from the disjoint halves, the field at an index from the law of `be16At`. -/
theorem bigEndianPairs : Obligations.BigEndianPairs :=
  ⟨be16_toNat, fun _ _ _ _ => be16At_of_slots⟩

end Sys2Proof.Machine
end

section
/-!
PROOFS. The session family: CMD0 and CONNECT (R81, R84).
-/

namespace Sys2Proof

theorem decodeCommand_of_opCmd0 {tmoW : Nat} {w : CmdWord} (h : cmdOp tmoW w = opCmd0) :
    decodeCommand tmoW w = .cmd0 (cmdArg tmoW w) := if_pos h

theorem decodeCommand_of_opConnect {tmoW : Nat} {w : CmdWord} (h : cmdOp tmoW w = opConnect) :
    decodeCommand tmoW w = .connect (cmdArg tmoW w) := by
  have hne : cmdOp tmoW w ≠ opCmd0 := by rw [h]; decide
  exact (if_neg hne).trans (if_pos h)

end Sys2Proof

namespace Sys2Proof.Machine

/-- Under R32 an idle block has nothing of an attempt left to clear. -/
theorem State.Inv.clearAttempt_eq {s : State} (h : s.Inv) (hp : s.phase = .idle) : s.clearAttempt = s := by
  have hcnt : s.cnt = 0#6 := h.idleCnt hp
  have hacc : s.acc = 0#16 := h.idleAcc hp
  have hbuf : s.buf = Memory.empty := h.buf_nil hp
  unfold State.clearAttempt
  rw [← hp, ← hcnt, ← hacc, ← hbuf]

/-- Completion without a Measurement in an idle block of R32; the strobe that `quiet` lowers is raised again. -/
theorem State.Inv.onlyResultChanged {s : State} (h : s.Inv) (hp : s.phase = .idle) (st : Status) :
    s.OnlyResultChanged (s.quiet.clearAttempt.emit st none) st :=
  calc s.quiet.clearAttempt.emit st none
    _ = s.clearAttempt.emit st none := rfl
    _ = s.emit st none := by rw [h.clearAttempt_eq hp]

/-- The frame of a command whose rule does nothing but complete: CMD0, and CONNECT when it fails. -/
theorem exec_frame_of_completes {i : Instr} {s : State} {st : Status} (hp : s.phase = .idle)
    (hr : Rule s i (s.quiet.clearAttempt.emit st none)) :
    ∃ t : State, exec i s = .next t ∧ t.Ended st none ∧ s.SessionKept t ∧ s.OutsideKept t ∧
      (s.Inv → s.OnlyResultChanged t st) :=
  ⟨_, rule_exec hr, finish_ended st none s.quiet, ⟨rfl, rfl⟩, ⟨rfl, rfl, rfl⟩, fun h => h.onlyResultChanged hp st⟩

/-- Settles O4: CMD0's one rule does nothing but complete. -/
theorem cmd0GivesBadCommand : Obligations.Cmd0GivesBadCommand :=
  ⟨fun _ _ => decodeCommand_of_opCmd0, fun _ arg hp => exec_frame_of_completes hp (.cmd0 arg hp)⟩

/-- Opening the channel (R81): what the rule `connectOpens` writes, and what it leaves. -/
theorem exec_connect_opens {s : State} (arg : Ticks) (hp : s.phase = .idle) (hs : s.session = .disc)
    (hc : s.inp.chOk = true) :
    ∃ t : State, exec (.connect arg) s = .next t ∧ t.Ended .ok none ∧ t.session = .conn ∧ t.chOpen = true ∧
      t.tmo = some arg ∧ s.OutsideKept t :=
  ⟨_, rule_exec (.connectOpens arg hp hs hc), finish_ended .ok none _, rfl, rfl, rfl, rfl, rfl, rfl⟩

/-- Settles O5, by CONNECT's three rules. -/
theorem connectOpensTheChannel : Obligations.ConnectOpensTheChannel := by
  refine ⟨fun _ _ => decodeCommand_of_opConnect, fun s arg hp => ⟨fun hs => ?_, fun hs hc => ?_, fun hs hc => ?_⟩⟩
  · exact exec_frame_of_completes hp (.connectTwice arg hp hs)
  · exact exec_connect_opens arg hp hs hc
  · exact exec_frame_of_completes hp (.connectFails arg hp hs hc)

end Sys2Proof.Machine
end

section
/-!
PROOFS. The frame_sync family: RX in the header phase, and EXPIRE (R101, R102, R106, R107).
-/

namespace Sys2Proof.Machine

theorem rxSlot_of_cnt {s : State} {n : BitVec 6} (h : s.cnt = n) : rxSlot s = n.toNat := by
  unfold rxSlot; rw [h]

/-- Taking a byte writes slot `cnt` and no other. -/
theorem State.slot_withByte (s : State) (b : Byte) (added : Bool) (a : Nat) :
    Memory.slot (s.withByte b added).buf a = if a = rxSlot s then some b else Memory.slot s.buf a := by
  simp only [State.withByte_buf, Memory.slot_put, eq_comm (a := a)]

/-- The frame of an event whose rule completes from a state `u` that keeps the session and what is outside the block. -/
theorem exec_ends_of_rule {i : Instr} {s u : State} {st : Status} {m : Option Measurement}
    (hr : Rule s i (u.clearAttempt.emit st m)) (hs : s.SessionKept u) (ho : s.OutsideKept u) :
    ∃ t : State, exec i s = .next t ∧ t.Ended st m ∧ s.SessionKept t ∧ s.OutsideKept t :=
  ⟨_, rule_exec hr, finish_ended st m u, hs, ho⟩

/-- R101 for the first header byte: what the rule `headerByte` writes, and what it leaves. -/
theorem exec_rx_first {s : State} (b : Byte) (hp : s.phase = .hdr) (hc : s.cnt = 0#6) :
    ∃ t : State, exec (.rx b) s = .next t ∧
      (∀ a, Memory.slot t.buf a = if a = rxSlot s then some b else Memory.slot s.buf a) ∧
      t.acc = s.acc + b.setWidth 16 ∧ t.cnt = 1#6 ∧ t.phase = .hdr ∧ t.last = s.last ∧ t.resValid = false ∧
      s.SessionKept t ∧ s.OutsideKept t := by
  have hslot : rxSlot s = 0 := rxSlot_of_cnt hc
  have hr : Rule s (.rx b) (s.quiet.withByte b true) :=
    .headerByte b hp (by rw [hslot]; decide) (by rw [hslot]; decide)
  have hcnt : s.cnt + 1#6 = 1#6 := by rw [hc]; decide
  exact ⟨_, rule_exec hr, s.quiet.slot_withByte b true, rfl, hcnt, hp, rfl, rfl, ⟨rfl, rfl⟩, rfl, rfl, rfl⟩

/-- R102 for a header that matches: what the rule `headerMatch` writes, and what it leaves. -/
theorem exec_rx_match {s : State} (hp : s.phase = .hdr) (hc : s.cnt = 1#6)
    (h0 : Memory.slot s.buf 0 = some Config.magic0) :
    ∃ t : State, exec (.rx Config.magic1) s = .next t ∧
      (∀ a, Memory.slot t.buf a = if a = rxSlot s then some Config.magic1 else Memory.slot s.buf a) ∧
      t.acc = s.acc + Config.magic1.setWidth 16 ∧ t.cnt = 2#6 ∧ t.phase = .body ∧ t.window = some .body ∧
      t.last = s.last ∧ t.resValid = false ∧ s.SessionKept t ∧ s.OutsideKept t := by
  have hr : Rule s (.rx Config.magic1) { s.quiet.withByte Config.magic1 true with phase := .body } :=
    .headerMatch Config.magic1 hp (rxSlot_of_cnt hc) h0 rfl
  have hcnt : s.cnt + 1#6 = 2#6 := by rw [hc]; decide
  exact ⟨_, rule_exec hr, s.quiet.slot_withByte _ true, rfl, hcnt, rfl, rfl, rfl, rfl, ⟨rfl, rfl⟩, rfl, rfl, rfl⟩

/-- Settles O8, by the three rules of RX in the header phase: the first byte, a header that matches, and one that does not. -/
theorem rxInHeaderPhase : Obligations.RxInHeaderPhase := by
  refine fun s b hp => ⟨exec_rx_first b hp, fun hc b0 h0 => ⟨?_, fun hne => ?_⟩⟩
  · rintro ⟨rfl, rfl⟩
    exact exec_rx_match hp hc h0
  · exact exec_ends_of_rule (.headerMismatch b b0 hp (rxSlot_of_cnt hc) h0 hne) ⟨rfl, rfl⟩ ⟨rfl, rfl, rfl⟩

/-- Settles O11: EXPIRE's one rule, for both phases, does nothing but complete. -/
theorem expireEndsTheAttempt : Obligations.ExpireEndsTheAttempt :=
  ⟨rfl, rfl, fun _ hp => exec_ends_of_rule (.expire hp) ⟨rfl, rfl⟩ ⟨rfl, rfl, rfl⟩⟩

end Sys2Proof.Machine
end

section
/-!
PROOFS. The checksum family: the frame buffer as a list of bytes, and the 32nd byte of a frame (R120, R121, R140 to R143).
-/

namespace Sys2Proof.Machine

/-- The bytes `bs` stand in the buffer's first slots, byte `i` in slot `i` (R24, R40). -/
def Memory.Holds (m : Memory) (bs : List Byte) : Prop := ∀ i, i < bs.length → Memory.slot m i = some (bs.getD i 0#8)

theorem Memory.Holds.put_append {m : Memory} {bs : List Byte} (h : Memory.Holds m bs) (b : Byte) :
    Memory.Holds (Memory.put m bs.length b) (bs ++ [b]) := by
  intro i hi
  rw [List.length_append, List.length_singleton] at hi
  rcases Nat.lt_succ_iff_lt_or_eq.mp hi with hlt | rfl
  · rw [Memory.slot_put_other m b (by omega), List.getD_append bs [b] 0#8 i hlt, h i hlt]
  · rw [Memory.slot_put_same, List.getD_append_right bs [b] 0#8 bs.length le_rfl, Nat.sub_self, List.getD_cons_zero]

/-- The 16-bit sum over the slots is the sum over the bytes mod 65536 (R120). -/
theorem Memory.Holds.slotSum_toNat {m : Memory} {bs : List Byte} (h : Memory.Holds m bs) {k : Nat}
    (hk : k ≤ bs.length) : (slotSum m k).toNat = ((bs.take k).map BitVec.toNat).sum % 65536 := by
  induction k with
  | zero => rfl
  | succ k ih =>
    have hbyte : (Memory.slot m k).getD 0#8 = bs[k] := by
      rw [h k hk, Option.getD_some, List.getD_eq_getElem bs 0#8 hk]
    have hlt : bs[k].toNat < 256 := bs[k].isLt
    rw [slotSum, hbyte, BitVec.toNat_add, ih (Nat.le_of_succ_le hk), BitVec.toNat_setWidth_of_le (by decide),
      List.take_succ_eq_append_getElem hk, List.map_append, List.sum_append, List.map_singleton, List.sum_singleton]
    omega

/-- A field whose two bytes the buffer holds. -/
theorem Memory.Holds.be16At_eq {m : Memory} {bs : List Byte} (h : Memory.Holds m bs) {i : Nat} (hi : i + 1 < bs.length) :
    be16At m i = .ok (be16 (bs.getD i 0#8) (bs.getD (i + 1) 0#8)) :=
  be16At_of_slots (h i (Nat.lt_of_succ_lt hi)) (h (i + 1) hi)

/-- The comparison of R121, on the sum over slots 0 to 29, answers whether the 32 bytes are a valid frame (R120). -/
theorem Memory.Holds.checksumValid_iff {m : Memory} {bs : List Byte} (h : Memory.Holds m bs)
    (hlen : bs.length = Config.frameLen) {v : Bool} :
    checksumValid (slotSum m Config.summedLen) m = .ok v ↔ (v = true ↔ frameValid bs) := by
  have hcheck : checksumValid (slotSum m Config.summedLen) m =
      .ok (slotSum m Config.summedLen == be16 (bs.getD 30 0#8) (bs.getD 31 0#8)) :=
    checksumValid_ok.mpr ⟨_, h.be16At_eq (by rw [hlen]; decide), rfl⟩
  have hsum := h.slotSum_toNat (k := Config.summedLen) (by rw [hlen]; decide)
  have hvalid : frameValid bs ↔ slotSum m Config.summedLen = be16 (bs.getD 30 0#8) (bs.getD 31 0#8) := by
    rw [frameValid, ← hsum, BitVec.toNat_inj, and_iff_right hlen]
  rw [hcheck, Except.ok.injEq, hvalid, Bool.eq_iff_iff, beq_iff_eq]
  exact Iff.comm

/-- The decoder reads a held frame's Measurement (R140 to R142). -/
theorem Memory.Holds.decodeFields_eq {m : Memory} {bs : List Byte} (h : Memory.Holds m bs)
    (hlen : bs.length = Config.frameLen) (now : Timestamp) :
    decodeFields m now = .ok (frameMeasurement bs now) :=
  decodeFields_ok.mpr ⟨_, _, _, h.be16At_eq (by rw [hlen]; decide), h.be16At_eq (by rw [hlen]; decide),
    h.be16At_eq (by rw [hlen]; decide), rfl⟩

/-- Under R32 the count is the number of the bytes taken. -/
theorem State.Inv.rxSlot_of_holds {s : State} (h : s.Inv) (hp : s.phase = .body) {bs : List Byte}
    (hbs : Memory.Holds s.buf bs) (hlen : bs.length = 31) : rxSlot s = 31 := by
  have hlast : 30 < s.cnt.toNat := (h.filled 30).mp (by rw [hbs 30 (by omega)]; rfl)
  have hle : s.cnt.toNat ≤ 31 := (h.bodyCnt hp).2
  exact Nat.le_antisymm hle hlast

/-- Under R32 the running sum at the 32nd byte is the sum over slots 0 to 29, which that byte does not touch. -/
theorem State.Inv.acc_of_rxSlot {s : State} (h : s.Inv) (hn : rxSlot s = 31) (b : Byte) :
    s.acc = slotSum (Memory.put s.buf 31 b) Config.summedLen :=
  calc s.acc
    _ = slotSum s.buf (min (rxSlot s) Config.summedLen) := h.accSum
    _ = slotSum s.buf Config.summedLen := by rw [hn]; rfl
    _ = slotSum (Memory.put s.buf 31 b) Config.summedLen :=
        slotSum_congr fun _ hi => (Memory.slot_put_other s.buf b (Nat.ne_of_gt (Nat.lt_succ_of_lt hi))).symm

/-- Settles O38, by RX's two rules at the 32nd byte: the frame is valid, or it is not. -/
theorem completionChecksTheFrame : Obligations.CompletionChecksTheFrame := by
  intro s bs b hinv hp hlen hslots
  have hbs : Memory.Holds s.buf bs := fun i hi => hslots i (hlen ▸ hi)
  have hn : rxSlot s = 31 := hinv.rxSlot_of_holds hp hbs hlen
  have hframe : Memory.Holds (Memory.put s.buf 31 b) (bs ++ [b]) := hlen ▸ hbs.put_append b
  have hlen' : (bs ++ [b]).length = Config.frameLen := by rw [List.length_append, hlen]; rfl
  have hcheck : ∀ v, checksumValid s.acc (Memory.put s.buf 31 b) = .ok v ↔ (v = true ↔ frameValid (bs ++ [b])) :=
    fun _ => hinv.acc_of_rxSlot hn b ▸ hframe.checksumValid_iff hlen'
  by_cases hvalid : frameValid (bs ++ [b])
  · have hr := Rule.frameValid b _ hp hn ((hcheck true).mpr (iff_of_true rfl hvalid))
      (hframe.decodeFields_eq hlen' s.inp.now)
    obtain ⟨t, ht, hend, hs, ho⟩ := exec_ends_of_rule hr ⟨rfl, rfl⟩ ⟨rfl, rfl, rfl⟩
    exact ⟨t, ht, hs, ho, .inl ⟨hvalid, hend⟩⟩
  · have hr := Rule.frameInvalid b hp hn ((hcheck false).mpr (iff_of_false Bool.false_ne_true hvalid))
    obtain ⟨t, ht, hend, hs, ho⟩ := exec_ends_of_rule hr ⟨rfl, rfl⟩ ⟨rfl, rfl, rfl⟩
    exact ⟨t, ht, hs, ho, .inr ⟨hvalid, hend⟩⟩

end Sys2Proof.Machine
end

section
/-!
PROOFS. The encoding family: an event's bytes decode to the event, and a word is the encoding of what it decodes to (R61 to
R63, R67; log 12).
-/

namespace Sys2Proof

/-! ## Command words -/

theorem decodeCommand_of_opDisconnect {tmoW : Nat} {w : CmdWord} (h : cmdOp tmoW w = opDisconnect) :
    decodeCommand tmoW w = .disconnect (cmdArg tmoW w) := by
  unfold decodeCommand
  rw [h, if_neg (by decide), if_neg (by decide), if_pos rfl]

theorem decodeCommand_of_opRead {tmoW : Nat} {w : CmdWord} (h : cmdOp tmoW w = opRead) :
    decodeCommand tmoW w = .read (cmdArg tmoW w) := by
  unfold decodeCommand
  rw [h, if_neg (by decide), if_neg (by decide), if_neg (by decide)]

/-- All four values of `op` are defined (R62). -/
theorem op_cases (op : Op) : op = opCmd0 ∨ op = opConnect ∨ op = opDisconnect ∨ op = opRead := by
  revert op; decide

theorem encodeCommand_decodeCommand {tmoW : Nat} {w : CmdWord} (hw : w < 2 ^ (tmoW + 2)) :
    encodeCommand tmoW (decodeCommand tmoW w) = some w := by
  have hfields := cmdWord_fields hw
  rcases op_cases (cmdOp tmoW w) with h | h | h | h
  · rw [decodeCommand_of_opCmd0 h, encodeCommand, ← h, hfields]
  · rw [decodeCommand_of_opConnect h, encodeCommand, ← h, hfields]
  · rw [decodeCommand_of_opDisconnect h, encodeCommand, ← h, hfields]
  · rw [decodeCommand_of_opRead h, encodeCommand, ← h, hfields]

/-- An event that has a command word is encoded by it, with the lines clear. -/
theorem encodeWord_of_encodeCommand {tmoW : Nat} {i : Instr} {w : CmdWord} (h : encodeCommand tmoW i = some w) :
    encodeWord tmoW i = eventWord tmoW 0b00000#5 w := by
  cases i with
  | cmd0 arg => exact congrArg (eventWord tmoW _) (Option.some.inj h)
  | connect arg => exact congrArg (eventWord tmoW _) (Option.some.inj h)
  | disconnect arg => exact congrArg (eventWord tmoW _) (Option.some.inj h)
  | read arg => exact congrArg (eventWord tmoW _) (Option.some.inj h)
  | rx b => cases h
  | expire => cases h
  | ioerr => cases h
  | reset => cases h

/-- The command word of a well-formed command decodes to the command. -/
theorem decodeCommand_of_encodeCommand {tmoW : Nat} {i : Instr} {w : CmdWord} (hi : i.wellFormed tmoW = true)
    (h : encodeCommand tmoW i = some w) : w < 2 ^ (tmoW + 2) ∧ decodeCommand tmoW w = i := by
  have key (op : Op) (arg : Ticks) (hw : cmdWord tmoW op arg = w) :
      w < 2 ^ (tmoW + 2) ∧ cmdOp tmoW w = op ∧ cmdArg tmoW w = lowBits tmoW arg :=
    hw ▸ ⟨cmdWord_lt tmoW op arg, cmdOp_cmdWord tmoW op arg, cmdArg_cmdWord tmoW op arg⟩
  cases i with
  | cmd0 arg =>
    obtain ⟨hlt, hop, harg⟩ := key opCmd0 arg (Option.some.inj h)
    exact ⟨hlt, by rw [decodeCommand_of_opCmd0 hop, harg, lowBits_of_fits hi]⟩
  | connect arg =>
    obtain ⟨hlt, hop, harg⟩ := key opConnect arg (Option.some.inj h)
    exact ⟨hlt, by rw [decodeCommand_of_opConnect hop, harg, lowBits_of_fits hi]⟩
  | disconnect arg =>
    obtain ⟨hlt, hop, harg⟩ := key opDisconnect arg (Option.some.inj h)
    exact ⟨hlt, by rw [decodeCommand_of_opDisconnect hop, harg, lowBits_of_fits hi]⟩
  | read arg =>
    obtain ⟨hlt, hop, harg⟩ := key opRead arg (Option.some.inj h)
    exact ⟨hlt, by rw [decodeCommand_of_opRead hop, harg, lowBits_of_fits hi]⟩
  | rx b => cases h
  | expire => cases h
  | ioerr => cases h
  | reset => cases h

/-! ## Event words -/

/-- A word without bits above its lines is its lines and its payload. -/
theorem eventWord_fields {tmoW w : Nat} (h : fits (payloadWidth tmoW + 5) w = true) :
    eventWord tmoW (eventLines tmoW w) (eventPayload tmoW w) = w := by
  have hd : w / 2 ^ payloadWidth tmoW < 2 ^ 5 := Nat.div_lt_of_lt_mul (by rw [← Nat.pow_add]; exact fits_iff.mp h)
  unfold eventWord eventLines eventPayload lowBits
  rw [BitVec.toNat_ofNat, Nat.mod_eq_of_lt hd, Nat.mul_comm]
  exact Nat.div_add_mod w _

/-- What the lines `ls` and the payload `p` stand for: `decodeWord` without the check of the bits above. -/
def decodeLines (tmoW : Nat) (ls : BitVec 5) (p : Nat) : Except DecodeError Instr :=
  if ls = 0b00000#5 then decodeCommandPayload tmoW p
  else if ls = 0b00001#5 then decodeBytePayload p
  else if ls = 0b00010#5 ∨ ls = 0b10000#5 ∨ ls = 0b10010#5 then decodeBare p .expire
  else if ls = 0b00100#5 then decodeBare p .ioerr
  else if ls = 0b01000#5 then decodeBare p .reset
  else .error .severalEvents

theorem decodeWord_eq {tmoW w : Nat} (h : fits (payloadWidth tmoW + 5) w = true) :
    decodeWord tmoW w = decodeLines tmoW (eventLines tmoW w) (eventPayload tmoW w) := by
  unfold decodeWord
  rw [h]
  rfl

theorem decodeWord_eventWord {tmoW p : Nat} (ls : BitVec 5) (h : p < 2 ^ payloadWidth tmoW) :
    decodeWord tmoW (eventWord tmoW ls p) = decodeLines tmoW ls p := by
  rw [decodeWord_eq (fits_eventWord ls h), eventLines_eventWord ls h, eventPayload_eventWord ls h]

theorem decodeCommandPayload_of_lt {tmoW p : Nat} (h : p < 2 ^ (tmoW + 2)) :
    decodeCommandPayload tmoW p = .ok (decodeCommand tmoW p) := if_pos (fits_iff.mpr h)

theorem decodeCommandPayload_ok {tmoW p : Nat} {i : Instr} :
    decodeCommandPayload tmoW p = .ok i ↔ p < 2 ^ (tmoW + 2) ∧ decodeCommand tmoW p = i := by
  unfold decodeCommandPayload
  by_cases h : p < 2 ^ (tmoW + 2) <;> simp [fits_iff, h]

theorem decodeBytePayload_ok {p : Nat} {i : Instr} :
    decodeBytePayload p = .ok i ↔ ∃ b : Byte, p = b.toNat ∧ i = .rx b := by
  unfold decodeBytePayload
  by_cases h : p < 2 ^ 8
  · simp only [fits_iff, h, if_true, Except.ok.injEq]
    constructor
    · rintro rfl
      exact ⟨BitVec.ofNat 8 p, by rw [BitVec.toNat_ofNat, Nat.mod_eq_of_lt h], rfl⟩
    · rintro ⟨b, rfl, rfl⟩
      rw [BitVec.ofNat_toNat, BitVec.setWidth_eq]
  · simp only [fits_iff, h, if_false, reduceCtorEq, false_iff]
    rintro ⟨b, rfl, -⟩
    exact h b.isLt

theorem decodeBare_ok {p : Nat} {i j : Instr} : decodeBare p i = .ok j ↔ p = 0 ∧ i = j := by
  unfold decodeBare
  by_cases h : p = 0 <;> simp [h]

/-- The word of a well-formed command decodes to it. -/
theorem decodeWord_of_encodeCommand {tmoW : Nat} {i : Instr} {w : CmdWord} (hi : i.wellFormed tmoW = true)
    (h : encodeCommand tmoW i = some w) : decodeWord tmoW (encodeWord tmoW i) = .ok i := by
  obtain ⟨hlt, hdec⟩ := decodeCommand_of_encodeCommand hi h
  have hp : w < 2 ^ payloadWidth tmoW := hlt.trans_le (Nat.pow_le_pow_right (by decide) (Nat.le_max_left _ _))
  rw [encodeWord_of_encodeCommand h, decodeWord_eventWord _ hp, decodeLines, if_pos rfl, decodeCommandPayload_of_lt hlt,
    hdec]

/-- The word of a well-formed event decodes to it. -/
theorem decodeWord_encodeWord {tmoW : Nat} {i : Instr} (hi : i.wellFormed tmoW = true) :
    decodeWord tmoW (encodeWord tmoW i) = .ok i := by
  cases i with
  | cmd0 arg => exact decodeWord_of_encodeCommand hi rfl
  | connect arg => exact decodeWord_of_encodeCommand hi rfl
  | disconnect arg => exact decodeWord_of_encodeCommand hi rfl
  | read arg => exact decodeWord_of_encodeCommand hi rfl
  | rx b => exact (decodeWord_eventWord _ (byte_lt_payload tmoW b)).trans (decodeBytePayload_ok.mpr ⟨b, rfl, rfl⟩)
  | expire => exact decodeWord_eventWord _ (Nat.two_pow_pos _)
  | ioerr => exact decodeWord_eventWord _ (Nat.two_pow_pos _)
  | reset => exact decodeWord_eventWord _ (Nat.two_pow_pos _)

/-- Settles O22: the first `eventBytes` bytes are the event's word, and that word decodes to the event. -/
theorem decodeAfterEncode : Obligations.DecodeAfterEncode := by
  intro tmoW i rest hi
  obtain ⟨hlen, hword⟩ := Laws.Encoded.encode_bytes tmoW i
  unfold decode
  rw [if_neg (by rw [List.length_append, hlen]; omega), List.take_left' hlen, List.drop_left' hlen, hword,
    decodeWord_encodeWord hi]

/-- The lines of a word that decodes are those of its event, but for EXPIRE. -/
theorem encodeWord_of_decodeLines {tmoW p : Nat} {ls : BitVec 5} {i : Instr} (h : decodeLines tmoW ls p = .ok i)
    (hne : i ≠ .expire) : encodeWord tmoW i = eventWord tmoW ls p := by
  unfold decodeLines at h
  split_ifs at h with h0 h1 h2 h3 h4
  · obtain ⟨hlt, rfl⟩ := decodeCommandPayload_ok.mp h
    rw [h0]
    exact encodeWord_of_encodeCommand (encodeCommand_decodeCommand hlt)
  · obtain ⟨b, rfl, rfl⟩ := decodeBytePayload_ok.mp h
    rw [h1]
    rfl
  · exact absurd (decodeBare_ok.mp h).2.symm hne
  · obtain ⟨rfl, rfl⟩ := decodeBare_ok.mp h
    rw [h3]
    rfl
  · obtain ⟨rfl, rfl⟩ := decodeBare_ok.mp h
    rw [h4]
    rfl

theorem encodeWord_of_decodeWord {tmoW w : Nat} {i : Instr} (h : decodeWord tmoW w = .ok i) (hne : i ≠ .expire) :
    encodeWord tmoW i = w := by
  by_cases hfit : fits (payloadWidth tmoW + 5) w = true
  · rw [decodeWord_eq hfit] at h
    exact (encodeWord_of_decodeLines h hne).trans (eventWord_fields hfit)
  · simp [decodeWord, hfit] at h

/-- Settles O23: a command word is its fields again, and an event word its lines and payload. -/
theorem encodeAfterDecode : Obligations.EncodeAfterDecode :=
  ⟨fun _ _ => encodeCommand_decodeCommand, fun _ _ _ => encodeWord_of_decodeWord⟩

/-! ## Words and codes as the spec writes them -/

/-- Settles O21: each word is fixed, so the decoder is run on it. -/
theorem writtenWordsDecode : Obligations.WrittenWordsDecode := by
  unfold Obligations.WrittenWordsDecode
  decide

end Sys2Proof

namespace Sys2Proof.Machine

/-- R65: the class bit, status by status. -/
theorem Status.raised_iff (st : Status) :
    st.raised = true ↔ st = .connError ∨ st = .lifecycleError ∨ st = .ioError ∨ st = .badCmd := by
  cases st <;> decide

/-- Settles O24: the codes are the definitions' own, and the class bit is read off the eight codes. -/
theorem statusAndStateCodes : Obligations.StatusAndStateCodes :=
  ⟨rfl, rfl, rfl, rfl, rfl, rfl, rfl, rfl, rfl, rfl, rfl, rfl, rfl, rfl, Status.raised_iff⟩

end Sys2Proof.Machine
end

section
/-!
PROOFS. One event at a time: RESET, the commands and the channel events that the sections above leave, and the output ports
(R60, R82, R83, R104, R105, R108, R180).
-/

namespace Sys2Proof.Machine

/-! ## The output ports (R29, R60) -/

theorem State.readPort_of_some {s : State} {p : ResultPort} {v : Nat} (h : s.resultPort p = some v) :
    s.readPort p = .ok v := by
  unfold State.readPort; rw [h]

theorem State.readPort_of_none {s : State} {p : ResultPort} (h : s.resultPort p = none) :
    s.readPort p = .error .noPortValue := by
  unfold State.readPort; rw [h]

theorem State.lastMeas_of_none {s : State} (h : s.last = none) : s.lastMeas = none := by
  unfold State.lastMeas; rw [h]

theorem State.lastMeas_of_some {s : State} {r : Result} (h : s.last = some r) : s.lastMeas = r.meas := by
  unfold State.lastMeas; rw [h]

/-- The ports other than the status carry fields of the Measurement. -/
theorem State.resultPort_of_noMeas {s : State} (h : s.lastMeas = none) {p : ResultPort} (hp : p ≠ .status) :
    s.resultPort p = none := by
  cases p with
  | status => exact absurd rfl hp
  | _ => exact congrArg (Option.map _) h

theorem State.readPort_of_noResult {s : State} (h : s.last = none) (p : ResultPort) :
    s.readPort p = .error .noPortValue := by
  refine State.readPort_of_none ?_
  by_cases hp : p = .status
  · subst hp
    exact congrArg (Option.map _) h
  · exact State.resultPort_of_noMeas (State.lastMeas_of_none h) hp

theorem State.readPort_status {s : State} {r : Result} (h : s.last = some r) :
    s.readPort .status = .ok r.status.code.toNat :=
  State.readPort_of_some (congrArg (Option.map _) h)

theorem State.resMeasValid_of_lastMeas {s : State} {m : Option Measurement} (h : s.lastMeas = m) :
    s.resMeasValid = m.isSome := by
  unfold State.resMeasValid; rw [h]

/-- Settles O25: the ports are read off `session`, `phase` and the three shapes of `last`. -/
theorem outputsFollowTheState : Obligations.OutputsFollowTheState := by
  intro s
  refine ⟨beq_iff_eq, ?_, beq_iff_eq, ?_, fun h => ?_, fun st h => ?_, fun st m h => ?_⟩
  · simp [State.busy]
  · simp [State.rxReady]
  · exact ⟨State.resMeasValid_of_lastMeas (State.lastMeas_of_none h), State.readPort_of_noResult h⟩
  · have hm : s.lastMeas = none := State.lastMeas_of_some h
    exact ⟨State.resMeasValid_of_lastMeas hm, State.readPort_status h,
      fun _ hp => State.readPort_of_none (State.resultPort_of_noMeas hm hp)⟩
  · have hm : s.lastMeas = some m := State.lastMeas_of_some h
    have field (p : ResultPort) (f : Measurement → Nat) (hf : s.resultPort p = s.lastMeas.map f) :
        s.readPort p = .ok (f m) := State.readPort_of_some (by rw [hf, hm, Option.map_some])
    exact ⟨State.resMeasValid_of_lastMeas hm, State.readPort_status h, field .pm1Raw _ rfl, field .pm25Raw _ rfl,
      field .pm10Raw _ rfl, field .pm1 _ rfl, field .pm25 _ rfl, field .pm10 _ rfl, field .ts _ rfl⟩

/-! ## RESET (R180) -/

/-- Settles O1: the reset values are those that `State.resetWith` writes. -/
theorem resetStateHoldsResetValues : Obligations.ResetStateHoldsResetValues :=
  ⟨rfl, fun _ => ⟨rfl, rfl, rfl, rfl, rfl, Memory.slot_empty, rfl, rfl, rfl, rfl⟩⟩

/-- Settles O2: RESET has one rule, and with no result held no port carries a value. -/
theorem resetStepClearsTheBlock : Obligations.ResetStepClearsTheBlock :=
  fun s => ⟨_, exec_reset s, rfl, rfl, rfl, rfl, rfl, Memory.slot_empty, rfl, rfl, State.readPort_of_noResult rfl, rfl, rfl,
    rfl, rfl, rfl⟩

/-! ## DISCONNECT and READ (R82, R83) -/

/-- R82 in IDLE: what the rule `disconnect` writes, and that a second DISCONNECT finds the same state. -/
theorem exec_disconnect_closes {s : State} (arg : Ticks) (hp : s.phase = .idle) :
    ∃ t : State, exec (.disconnect arg) s = .next t ∧ t.Ended .ok none ∧ t.session = .disc ∧ t.chOpen = false ∧
      t.tmo = s.tmo ∧ s.OutsideKept t ∧ (∀ arg' : Ticks, exec (.disconnect arg') t = .next t) ∧
      (s.Inv → s.session = .disc → s.OnlyResultChanged t .ok) := by
  refine ⟨_, rule_exec (.disconnect arg hp), finish_ended .ok none _, rfl, rfl, rfl, ⟨rfl, rfl, rfl⟩,
    fun arg' => rule_exec (.disconnect arg' rfl), fun hinv hs => ?_⟩
  have hkeep : ({ s.quiet with session := .disc } : State) = s.quiet := by rw [← hs]; rfl
  rw [hkeep]
  exact hinv.onlyResultChanged hp .ok

/-- Settles O6: DISCONNECT's one rule in IDLE, and the refusal while busy. -/
theorem disconnectClosesTheSession : Obligations.DisconnectClosesTheSession :=
  ⟨fun _ _ => decodeCommand_of_opDisconnect, fun s arg =>
    ⟨exec_disconnect_closes arg, fun hp => (exec_disconnect arg s).trans (acceptCommand_busy hp)⟩⟩

/-- R83 in CONN: what the rule `readStarts` writes, and what it leaves. -/
theorem exec_read_starts {s : State} (arg : Ticks) (hp : s.phase = .idle) (hs : s.session = .conn) :
    ∃ t : State, exec (.read arg) s = .next t ∧ t.phase = .hdr ∧ t.cnt = 0#6 ∧ t.acc = 0#16 ∧
      (∀ a, Memory.slot t.buf a = none) ∧ t.window = some .header ∧ t.last = s.last ∧ t.resValid = false ∧
      s.SessionKept t ∧ s.OutsideKept t :=
  ⟨_, rule_exec (.readStarts arg hp hs), rfl, rfl, rfl, Memory.slot_empty, rfl, rfl, rfl, ⟨rfl, rfl⟩, rfl, rfl, rfl⟩

/-- Settles O7, by READ's two rules. -/
theorem readStartsAnAttempt : Obligations.ReadStartsAnAttempt :=
  ⟨fun _ _ => decodeCommand_of_opRead, fun _ arg hp =>
    ⟨exec_read_starts arg hp, fun hs => exec_frame_of_completes hp (.readClosed arg hp hs)⟩⟩

/-! ## RX in the body phase (R104, R105) -/

/-- The count of a byte taken before the 32nd. -/
theorem cnt_add_one_toNat {c : BitVec 6} (h : c.toNat < 32) : (c + 1#6).toNat = c.toNat + 1 := by
  rw [BitVec.toNat_add, BitVec.toNat_ofNat]; omega

/-- Settles O9: what the rule `bodyByte` writes, and what it leaves. -/
theorem rxInBodyPhase : Obligations.RxInBodyPhase := by
  intro s b hp _ hle
  have hr : Rule s (.rx b) (s.quiet.withByte b (decide (rxSlot s < Config.summedLen))) :=
    .bodyByte b hp (Nat.lt_of_le_of_lt hle (by decide)) (Nat.ne_of_lt (Nat.lt_succ_of_le hle))
  refine ⟨_, rule_exec hr, s.quiet.slot_withByte b _, ?_, cnt_add_one_toNat (Nat.lt_of_le_of_lt hle (by decide)), hp, rfl, rfl,
    ⟨rfl, rfl⟩, rfl, rfl, rfl⟩
  exact if_congr (decide_eq_true_iff.trans Nat.lt_succ_iff) rfl rfl

/-- What `checksumValid` and `decodeFields` read once the 32nd byte is stored, from the 31 bytes before it. -/
theorem be16At_put_last {m : Memory} {f : Nat → Byte} (hf : ∀ i, i < 31 → Memory.slot m i = some (f i)) (b : Byte)
    {i : Nat} (hi : i < 30) : be16At (Memory.put m 31 b) i = .ok (be16 (f i) (f (i + 1))) :=
  be16At_of_slots ((Memory.slot_put_other m b (by omega)).trans (hf i (by omega)))
    ((Memory.slot_put_other m b (by omega)).trans (hf (i + 1) (by omega)))

theorem checksumValid_put_last {m : Memory} {hi : Byte} (h : Memory.slot m 30 = some hi) (acc : Half) (b : Byte) :
    checksumValid acc (Memory.put m 31 b) = .ok (acc == be16 hi b) :=
  checksumValid_ok.mpr ⟨_, be16At_of_slots ((Memory.slot_put_other m b (by decide)).trans h) (Memory.slot_put_same m 31 b),
    rfl⟩

/-- R105 with a sum that is not the field: CSUM_FAIL. Of the slots only slot 30 matters. -/
theorem exec_rx_invalid {s : State} {hi : Byte} (b : Byte) (hp : s.phase = .body) (hc : s.cnt = 31#6)
    (h30 : Memory.slot s.buf 30 = some hi) (hne : s.acc ≠ be16 hi b) :
    ∃ t : State, exec (.rx b) s = .next t ∧ t.Ended .csumFail none ∧ s.SessionKept t ∧ s.OutsideKept t := by
  have hv : checksumValid s.acc (Memory.put s.buf 31 b) = .ok false := by
    rw [checksumValid_put_last h30, beq_eq_false_iff_ne.mpr hne]
  exact exec_ends_of_rule (.frameInvalid b hp (rxSlot_of_cnt hc) hv) ⟨rfl, rfl⟩ ⟨rfl, rfl, rfl⟩

/-- Settles O10, by the two rules of the 32nd byte. -/
theorem rxCompletesTheFrame : Obligations.RxCompletesTheFrame := by
  intro s b f hp hc hf
  refine ⟨fun heq => ?_, exec_rx_invalid b hp hc (hf 30 (by decide))⟩
  have hv : checksumValid s.acc (Memory.put s.buf 31 b) = .ok true := by
    rw [checksumValid_put_last (hf 30 (by decide)), heq, beq_self_eq_true]
  have hm := (decodeFields_ok (now := s.inp.now)).mpr ⟨_, _, _, be16At_put_last hf b (i := Config.pm1Pos) (by decide),
    be16At_put_last hf b (i := Config.pm25Pos) (by decide), be16At_put_last hf b (i := Config.pm10Pos) (by decide), rfl⟩
  exact exec_ends_of_rule (.frameValid b _ hp (rxSlot_of_cnt hc) hv hm) ⟨rfl, rfl⟩ ⟨rfl, rfl, rfl⟩

/-! ## IOERR, and the events that are not enabled (R67, R80, R108) -/

/-- Settles O12: IOERR's one rule for both phases, and the refusal in IDLE. -/
theorem ioerrEndsTheAttempt : Obligations.IoerrEndsTheAttempt :=
  ⟨rfl, fun _ => ⟨fun hp => exec_ends_of_rule (.ioerr hp) ⟨rfl, rfl⟩ ⟨rfl, rfl, rfl⟩, channelEvent_idle⟩⟩

theorem execConnect_busy {s : State} (arg : Ticks) (hp : s.phase = .hdr ∨ s.phase = .body) :
    execConnect arg s = .refused .commandWhileBusy := acceptCommand_busy hp

theorem execRead_busy {s : State} (arg : Ticks) (hp : s.phase = .hdr ∨ s.phase = .body) :
    execRead arg s = .refused .commandWhileBusy := acceptCommand_busy hp

/-- Settles O13: every command is accepted by `acceptCommand`, every channel event by `channelEvent`. -/
theorem disabledEventsHaveNoStep : Obligations.DisabledEventsHaveNoStep :=
  fun s arg _ => ⟨fun hp => ⟨acceptCommand_busy hp, execConnect_busy arg hp,
      (exec_disconnect arg s).trans (acceptCommand_busy hp), execRead_busy arg hp⟩,
    fun hp => ⟨channelEvent_idle hp, channelEvent_idle hp, channelEvent_idle hp⟩⟩

end Sys2Proof.Machine
end

section
/-!
PROOFS. What every executed event and every step keeps, from the rules of `exec`: R32, the held result, the canonical buffer, the
widths, and who writes what.
-/

namespace Sys2Proof.Machine

/-! ## The three effects of an executed event -/

/-- An executed event resets the block, starts or goes on with an attempt, or completes a command. -/
inductive Effect (s : State) (i : Instr) (t : State) : Prop where
  | resets (hi : i = .reset) (ht : t = { State.resetWith s.params with inp := s.inp, env := s.env })
  | goesOn (hphase : t.phase = .hdr ∨ t.phase = .body) (hlast : t.last = s.last) (hquiet : t.resValid = false)
      (hsession : s.SessionKept t) (houtside : s.OutsideKept t)
      (hbuf : (∃ arg, i = .read arg) ∧ t.buf = Memory.empty ∨
        ∃ b, i = .rx b ∧ rxSlot s < Config.frameLen ∧ t.cnt = s.cnt + 1#6 ∧ t.buf = Memory.put s.buf (rxSlot s) b)
  | ends (st : Status) (m : Option Measurement) (u : State) (ht : t = u.clearAttempt.emit st m) (hst : st ≠ .decodeFail)
      (houtside : s.OutsideKept u)
      (hmeas : ∀ x, m = some x → st = .ok ∧ x.pm1 = f64Div10 x.pm1Raw ∧ x.pm25 = f64Div10 x.pm25Raw ∧
        x.pm10 = f64Div10 x.pm10Raw ∧ x.capturedAt = s.inp.now)
      (hjudged : m ≠ none ∨ (s.phase ≠ .idle ∧ (st = .ok ∨ st = .csumFail)) →
        s.phase = .body ∧ rxSlot s = 31 ∧ ∃ b, i = .rx b)

/-- A completion without a Measurement, in IDLE or with a status that no validation gives. -/
theorem Effect.ends_noMeas {s u : State} {i : Instr} (st : Status) (hst : st ≠ .decodeFail) (houtside : s.OutsideKept u)
    (hno : s.phase = .idle ∨ (st ≠ .ok ∧ st ≠ .csumFail)) : Effect s i (u.clearAttempt.emit st none) := by
  refine .ends st none u rfl hst houtside (fun _ h => nomatch h) ?_
  rintro (h | ⟨hp, h⟩)
  · exact absurd rfl h
  · rcases hno with hidle | ⟨h1, h2⟩
    · exact absurd hidle hp
    · exact absurd h (not_or.mpr ⟨h1, h2⟩)

/-- What the decoder makes (R140 to R142). -/
theorem decodeFields_scaled {buf : Memory} {now : Timestamp} {m : Measurement} (h : decodeFields buf now = .ok m) :
    m.pm1 = f64Div10 m.pm1Raw ∧ m.pm25 = f64Div10 m.pm25Raw ∧ m.pm10 = f64Div10 m.pm10Raw ∧ m.capturedAt = now := by
  obtain ⟨v1, v25, v10, -, -, -, rfl⟩ := decodeFields_ok.mp h
  exact ⟨rfl, rfl, rfl, rfl⟩

/-- Every rule has one of the three effects. -/
theorem Rule.effect {s t : State} {i : Instr} (h : Rule s i t) : Effect s i t := by
  cases h with
  | reset => exact .resets rfl rfl
  | cmd0 arg hp => exact .ends_noMeas _ (by decide) ⟨rfl, rfl, rfl⟩ (.inl hp)
  | connectTwice arg hp hs => exact .ends_noMeas _ (by decide) ⟨rfl, rfl, rfl⟩ (.inl hp)
  | connectOpens arg hp hs hc => exact .ends_noMeas _ (by decide) ⟨rfl, rfl, rfl⟩ (.inl hp)
  | connectFails arg hp hs hc => exact .ends_noMeas _ (by decide) ⟨rfl, rfl, rfl⟩ (.inl hp)
  | disconnect arg hp => exact .ends_noMeas _ (by decide) ⟨rfl, rfl, rfl⟩ (.inl hp)
  | readClosed arg hp hs => exact .ends_noMeas _ (by decide) ⟨rfl, rfl, rfl⟩ (.inl hp)
  | readStarts arg hp hs => exact .goesOn (.inl rfl) rfl rfl ⟨rfl, rfl⟩ ⟨rfl, rfl, rfl⟩ (.inl ⟨⟨arg, rfl⟩, rfl⟩)
  | headerByte b hp hl hn => exact .goesOn (.inl hp) rfl rfl ⟨rfl, rfl⟩ ⟨rfl, rfl, rfl⟩ (.inr ⟨b, rfl, hl, rfl, rfl⟩)
  | headerMatch b hp hn h0 h1 =>
    exact .goesOn (.inr rfl) rfl rfl ⟨rfl, rfl⟩ ⟨rfl, rfl, rfl⟩ (.inr ⟨b, rfl, by rw [hn]; decide, rfl, rfl⟩)
  | headerMismatch b b0 hp hn h0 h1 => exact .ends_noMeas _ (by decide) ⟨rfl, rfl, rfl⟩ (.inr (by decide))
  | bodyByte b hp hl hn => exact .goesOn (.inr hp) rfl rfl ⟨rfl, rfl⟩ ⟨rfl, rfl, rfl⟩ (.inr ⟨b, rfl, hl, rfl, rfl⟩)
  | frameValid b m hp hn hv hm =>
    exact .ends _ _ _ rfl (by decide) ⟨rfl, rfl, rfl⟩ (fun x hx => Option.some.inj hx ▸ ⟨rfl, decodeFields_scaled hm⟩)
      fun _ => ⟨hp, hn, b, rfl⟩
  | frameInvalid b hp hn hv =>
    exact .ends _ _ _ rfl (by decide) ⟨rfl, rfl, rfl⟩ (fun _ h => nomatch h) fun _ => ⟨hp, hn, b, rfl⟩
  | expire hp => exact .ends_noMeas _ (by decide) ⟨rfl, rfl, rfl⟩ (.inr (by decide))
  | ioerr hp => exact .ends_noMeas _ (by decide) ⟨rfl, rfl, rfl⟩ (.inr (by decide))

theorem exec_effect {s t : State} {i : Instr} (h : exec i s = .next t) : Effect s i t := (exec_rule h).effect

/-- No event touches the inputs, the environment or the widths. -/
theorem exec_outsideKept {s t : State} {i : Instr} (h : exec i s = .next t) : s.OutsideKept t := by
  cases exec_effect h with
  | resets hi ht => subst ht; exact ⟨rfl, rfl, rfl⟩
  | goesOn hphase hlast hquiet hsession houtside hbuf => exact houtside
  | ends st m u ht hst houtside hmeas hjudged => subst ht; exact houtside

/-! ## R32 -/

/-- The invariant does not speak of the strobe. -/
theorem State.Inv.quiet {s : State} (h : s.Inv) : s.quiet.Inv := by
  obtain ⟨a1, a2, a3, a4, a5, a6, a7, a8, a9, a10, a11⟩ := h
  constructor <;> assumption

/-- R32 after reset, in any widths and environment. -/
theorem State.inv_resetWith (p : Params) (e : Env) (x : Inputs) :
    ({ State.resetWith p with env := e, inp := x } : State).Inv := by
  constructor <;> simp [slotSum]

/-- R32 when an attempt starts, the session being open. -/
theorem State.inv_startAttempt {s : State} (hs : s.session = .conn) : s.startAttempt.Inv := by
  constructor <;> simp [slotSum, hs]

/-- The running sum after a byte that is added exactly when its index is below 30 (R104). -/
theorem State.Inv.acc_withByte {s : State} (h : s.Inv) (b : Byte) :
    (s.withByte b (decide (rxSlot s < Config.summedLen))).acc =
      slotSum (Memory.put s.buf (rxSlot s) b) (min (rxSlot s + 1) Config.summedLen) := by
  have hacc : s.acc = slotSum s.buf (min (rxSlot s) Config.summedLen) := h.accSum
  have hbelow : ∀ k, k ≤ rxSlot s → slotSum (Memory.put s.buf (rxSlot s) b) k = slotSum s.buf k := fun k hk =>
    slotSum_congr fun i hi => Memory.slot_put_other s.buf b (Nat.ne_of_gt (Nat.lt_of_lt_of_le hi hk))
  by_cases hlt : rxSlot s < Config.summedLen
  · rw [Nat.min_eq_left hlt.le] at hacc
    rw [Nat.min_eq_left hlt, slotSum, hbelow _ le_rfl, ← hacc, Memory.slot_put_same, State.withByte_acc, decide_eq_true hlt]
    rfl
  · have hge : Config.summedLen ≤ rxSlot s := Nat.le_of_not_lt hlt
    rw [Nat.min_eq_right hge] at hacc
    rw [Nat.min_eq_right (hge.trans (Nat.le_succ _)), hbelow _ hge, ← hacc, State.withByte_acc, decide_eq_false hlt]
    rfl

/-- After a byte the slots below the count, and no others, hold bytes. -/
theorem State.Inv.filled_withByte {s : State} (h : s.Inv) (b : Byte) (added : Bool) (i : Nat) :
    (Memory.slot (s.withByte b added).buf i).isSome = true ↔ i < rxSlot s + 1 := by
  have hfilled : (Memory.slot s.buf i).isSome = true ↔ i < rxSlot s := h.filled i
  rw [State.slot_withByte]
  by_cases hi : i = rxSlot s
  · rw [if_pos hi, hi]
    exact iff_of_true rfl (Nat.lt_succ_self _)
  · rw [if_neg hi, hfilled]
    omega

/-- The session is open while an attempt is in progress. -/
theorem State.Inv.session_of_busy {s : State} (h : s.Inv) (hp : s.phase ≠ .idle) : s.session ≠ .disc :=
  fun hs => hp (h.discIdle hs)

/-- R32 after a byte that does not end the attempt, with the phase `p` after it. -/
theorem State.Inv.withByte {s : State} (h : s.Inv) (b : Byte) {p : Phase} (hs : s.phase ≠ .idle)
    (hp : p = .hdr ∧ rxSlot s = 0 ∨
      p = .body ∧ 1 ≤ rxSlot s ∧ rxSlot s ≤ 30 ∧ Memory.slot (Memory.put s.buf (rxSlot s) b) 0 = some Config.magic0 ∧
        Memory.slot (Memory.put s.buf (rxSlot s) b) 1 = some Config.magic1) :
    ({ s.withByte b (decide (rxSlot s < Config.summedLen)) with phase := p } : State).Inv := by
  have hcnt : (s.cnt + 1#6).toNat = rxSlot s + 1 := cnt_add_one_toNat h.cnt_lt
  have hidle : p ≠ .idle := by rcases hp with ⟨rfl, -⟩ | ⟨rfl, -⟩ <;> decide
  have hunused : p ≠ .unused := by rcases hp with ⟨rfl, -⟩ | ⟨rfl, -⟩ <;> decide
  have hbody (hb : p = .body) : 1 ≤ rxSlot s ∧ rxSlot s ≤ 30 ∧
      Memory.slot (Memory.put s.buf (rxSlot s) b) 0 = some Config.magic0 ∧
      Memory.slot (Memory.put s.buf (rxSlot s) b) 1 = some Config.magic1 := by
    rcases hp with ⟨rfl, -⟩ | ⟨-, hp⟩
    · cases hb
    · exact hp
  have hhdr (hh : p = .hdr) : rxSlot s = 0 := by
    rcases hp with ⟨-, hp⟩ | ⟨rfl, -⟩
    · exact hp
    · cases hh
  constructor
  case canonical => exact Memory.wf_put h.canonical b h.cnt_lt
  case legalPhase => exact hunused
  case idleCnt => exact fun hi => absurd hi hidle
  case idleAcc => exact fun hi => absurd hi hidle
  case idleBuf => exact fun hi => absurd hi hidle
  case hdrCnt => exact fun hh => hcnt.trans_le (by rw [hhdr hh])
  case bodyCnt =>
    intro hb
    obtain ⟨hlo, hhi, -⟩ := hbody hb
    exact ⟨(Nat.succ_le_succ hlo).trans_eq hcnt.symm, hcnt.trans_le (Nat.succ_le_succ hhi)⟩
  case bodyMagic => exact fun hb => (hbody hb).2.2
  case filled => exact fun i => (h.filled_withByte b (decide (rxSlot s < Config.summedLen)) i).trans (hcnt ▸ Iff.rfl)
  case discIdle => exact fun hd => absurd hd (h.session_of_busy hs)
  case accSum => exact (h.acc_withByte b).trans (congrArg (fun n => slotSum _ (min n _)) hcnt.symm)

/-- R32 is kept by every rule. -/
theorem State.Inv.rule {s t : State} {i : Instr} (h : s.Inv) (hr : Rule s i t) : t.Inv := by
  cases hr with
  | reset => exact State.inv_resetWith _ _ _
  | readStarts arg hp hs => exact State.inv_startAttempt hs
  | headerByte b hp hl hn =>
    have h0 : rxSlot s = 0 := Nat.lt_one_iff.mp (Nat.lt_of_le_of_ne (h.hdrCnt hp) hn)
    have hsum : decide (rxSlot s < Config.summedLen) = true := by rw [h0]; rfl
    have hinv := h.quiet.withByte b (p := s.phase) (by rw [State.quiet_phase, hp]; decide) (.inl ⟨hp, h0⟩)
    rwa [rxSlot_quiet, hsum] at hinv
  | headerMatch b hp hn h0 h1 =>
    have hsum : decide (rxSlot s < Config.summedLen) = true := by rw [hn]; rfl
    have hmagic : Memory.slot (Memory.put s.buf (rxSlot s) b) 0 = some Config.magic0 ∧
        Memory.slot (Memory.put s.buf (rxSlot s) b) 1 = some Config.magic1 := by
      rw [hn, Memory.slot_put_same, h1, Memory.slot_put_other _ _ (by decide)]
      exact ⟨h0, rfl⟩
    have hinv := h.quiet.withByte b (p := .body) (by rw [State.quiet_phase, hp]; decide)
      (.inr ⟨rfl, hn.ge, by rw [rxSlot_quiet, hn]; decide, hmagic⟩)
    rwa [rxSlot_quiet, hsum] at hinv
  | bodyByte b hp hl hn =>
    obtain ⟨hlo, hhi⟩ : 2 ≤ rxSlot s ∧ rxSlot s ≤ 31 := h.bodyCnt hp
    obtain ⟨hm0, hm1⟩ := h.bodyMagic hp
    have hmagic : Memory.slot (Memory.put s.buf (rxSlot s) b) 0 = some Config.magic0 ∧
        Memory.slot (Memory.put s.buf (rxSlot s) b) 1 = some Config.magic1 := by
      rw [Memory.slot_put_other _ _ (by omega), Memory.slot_put_other _ _ (by omega)]
      exact ⟨hm0, hm1⟩
    exact h.quiet.withByte b (p := s.phase) (by rw [State.quiet_phase, hp]; decide)
      (.inr ⟨hp, Nat.le_of_succ_le hlo, Nat.lt_succ_iff.mp (Nat.lt_of_le_of_ne hhi hn), hmagic⟩)
  | cmd0 | connectTwice | connectOpens | connectFails | disconnect | readClosed | headerMismatch | frameValid | frameInvalid
  | expire | ioerr => exact State.inv_ended _ _ _

/-- A step fetches an event, which changes nothing of the block, and executes it. -/
theorem step_cases_block {s t : State} (h : step s = .next t) :
    ∃ i u, fetch s = .next (i, u) ∧ s.SameBlock u ∧ exec i u = .next t := by
  obtain ⟨i, u, hf, he⟩ := step_cases h
  exact ⟨i, u, hf, (fetch_cases hf).1, he⟩

/-- Settles O28: fetching leaves the block alone, and every rule keeps R32. -/
theorem stepKeepsInvariant : Obligations.StepKeepsInvariant := by
  intro s t h hstep
  obtain ⟨i, u, -, hblock, he⟩ := step_cases_block hstep
  exact (h.of_sameBlock hblock).rule (exec_rule he)

end Sys2Proof.Machine
end

section
/-!
PROOFS. One step: which event it takes, from which offer, and that a placed event is the next (R7, R46, R67, R80, R181; log 5 to 9
and 13).
-/

namespace Sys2Proof.Machine

/-! ## The event of a step -/

theorem step_of_reset {s : State} (hr : s.rstNow = true) : step s = exec .reset s.dropRst := step_of_fetch (fetch_reset hr)

theorem step_of_unused {s : State} (hp : s.phase = .unused) (hr : s.rstNow = false) : step s = .fault .illegalPhase := by
  unfold step fetch
  rw [hr, if_neg Bool.false_ne_true, hp]

/-- R61, R80: in IDLE the first command is taken. -/
theorem fetch_of_host {s : State} {o : HostOffer} {rest : List HostOffer} (hp : s.phase = .idle) (hr : s.rstNow = false)
    (hh : s.env.host = o :: rest) :
    fetch s = .next (decodeCommand s.params.tmoW o.word,
      { s with inp := { s.inp with chOk := o.chOk },
               env := { host := rest, chan := s.env.chan, rst := s.env.rst.tail } }) := by
  rw [fetch_idle hr hp]
  unfold fetchHost
  rw [State.dropRst_host, hh]
  rfl

theorem step_of_host {s : State} {o : HostOffer} {rest : List HostOffer} (hp : s.phase = .idle) (hr : s.rstNow = false)
    (hh : s.env.host = o :: rest) :
    step s = exec (decodeCommand s.params.tmoW o.word)
      { s with inp := { s.inp with chOk := o.chOk }, env := { host := rest, chan := s.env.chan, rst := s.env.rst.tail } } :=
  step_of_fetch (fetch_of_host hp hr hh)

/-- R67: in an attempt the first channel event is taken. -/
theorem step_of_chan {s : State} {o : ChanOffer} {rest : List ChanOffer} (hp : s.phase = .hdr ∨ s.phase = .body)
    (hr : s.rstNow = false) (hc : s.env.chan = o :: rest) : step s = exec o.event (s.dropRst.afterChan o rest) := by
  refine step_of_fetch ((fetch_attempt hr hp).trans ?_)
  unfold fetchChan
  rw [State.dropRst_chan, hc]

/-- Log 7: in an attempt with nothing more in the channel the window expires. -/
theorem step_of_noChan {s : State} (hp : s.phase = .hdr ∨ s.phase = .body) (hr : s.rstNow = false) (hc : s.env.chan = []) :
    step s = exec .expire s.dropRst := by
  refine step_of_fetch ((fetch_attempt hr hp).trans ?_)
  unfold fetchChan
  rw [State.dropRst_chan, hc]

/-- In IDLE with no command the reset line decides. -/
theorem fetch_of_noHost {s : State} (hp : s.phase = .idle) (hr : s.rstNow = false) (hh : s.env.host = []) :
    fetch s = fetchLateReset s.dropRst := by
  rw [fetch_idle hr hp]
  unfold fetchHost
  rw [State.dropRst_host, hh]

/-- Settles O3: RESET comes first, and its rule leaves the offers. -/
theorem resetComesFirst : Obligations.ResetComesFirst :=
  fun s hr => ⟨_, (step_of_reset hr).trans (exec_reset s.dropRst), exec_reset s.dropRst, rfl, rfl, rfl, rfl, rfl⟩

/-- Settles O16: in IDLE `fetch` takes the first command, and the step executes what is fetched. -/
theorem stepRunsTheCommand : Obligations.StepRunsTheCommand := fun _ _ _ => step_of_host

/-- Settles O17: what `afterChan` leaves, offer by offer. -/
theorem stepRunsTheChannelEvent : Obligations.StepRunsTheChannelEvent := by
  intro s o rest hp hr hc
  have hstep := step_of_chan hp hr hc
  refine ⟨?_, ?_, ?_⟩
  · rintro b now rfl
    exact hstep
  · rintro (rfl | rfl) <;> exact hstep
  · rintro rfl
    exact hstep

/-! ## A step without an offer (log 7, 9) -/

/-- With no assertion of `rst` to come there is no event. -/
theorem fetchLateReset_of_noReset {s : State} (h : s.NoReset) : fetchLateReset s = .refused .noEvent := by
  have hnone : s.env.rst.dropWhile (fun high => !high) = [] :=
    List.dropWhile_eq_nil_iff.mpr fun high hmem => by rw [h high hmem]; rfl
  unfold fetchLateReset
  rw [hnone]

theorem dropWhile_low (n : Nat) (rest : List Bool) :
    (List.replicate n false ++ true :: rest).dropWhile (fun high => !high) = true :: rest := by
  induction n with
  | zero => rfl
  | succ n ih => exact ih

theorem State.NoReset.dropRst {s : State} (h : s.NoReset) : s.dropRst.NoReset :=
  fun high hmem => h high (List.mem_of_mem_tail hmem)

theorem State.NoReset.rstNow {s : State} (h : s.NoReset) : s.rstNow = false := by
  unfold State.rstNow
  cases hl : s.env.rst with
  | nil => rfl
  | cons high rest => exact h high (hl ▸ List.mem_cons_self)

/-- A line that is low now and high later is low for the samples between. -/
theorem dropRst_low {s : State} {n : Nat} {rest : List Bool} (hr : s.rstNow = false)
    (hl : s.env.rst = List.replicate n false ++ true :: rest) :
    s.dropRst.env.rst.dropWhile (fun high => !high) = true :: rest := by
  cases n with
  | zero => simp [State.rstNow, hl] at hr
  | succ n =>
    rw [State.dropRst_rst, hl]
    exact dropWhile_low n rest

/-- Settles O18: an attempt expires, and an idle block waits for the next assertion of `rst`. -/
theorem stepWithoutOffer : Obligations.StepWithoutOffer := by
  refine fun s hr => ⟨fun hp hc => step_of_noChan hp hr hc, fun hp hh => ⟨fun hno => ?_, fun n rest hl => ?_⟩⟩
  · unfold step
    rw [fetch_of_noHost hp hr hh, fetchLateReset_of_noReset hno.dropRst]
  · refine step_of_fetch ((fetch_of_noHost hp hr hh).trans ?_)
    unfold fetchLateReset
    rw [dropRst_low hr hl]
    rfl

/-- Settles O20: fetching takes at most one offer, and no event touches the lists. -/
theorem offersAreTakenInOrder : Obligations.OffersAreTakenInOrder := by
  intro s t hstep
  obtain ⟨i, u, hf, he⟩ := step_cases hstep
  obtain ⟨-, henv, -⟩ := exec_outsideKept he
  rw [henv]
  obtain ⟨-, ⟨-, -, hh, hc⟩ | ⟨hp, o, rest, hh, -, hh', hc, -⟩ | ⟨hp, -, -, rfl⟩ | ⟨hp, o, rest, hc, -, rfl⟩⟩ :=
    fetch_cases hf
  · exact ⟨.inl hh, .inl hc⟩
  · exact ⟨.inr ⟨beq_iff_eq.mpr hp, o, by rw [hh, hh']⟩, .inl hc⟩
  · exact ⟨.inl rfl, .inl rfl⟩
  · have hready : s.rxReady = true := by simpa [State.rxReady] using hp
    rw [State.afterChan_env]
    exact ⟨.inl rfl, .inr ⟨hready, o, hc⟩⟩

/-! ## Placing an event (log 13) -/

theorem decodeCommandPayload_wellFormed {tmoW p : Nat} {i : Instr} (h : decodeCommandPayload tmoW p = .ok i) :
    i.wellFormed tmoW = true := by
  obtain ⟨-, rfl⟩ := decodeCommandPayload_ok.mp h
  exact decodeCommand_wellFormed tmoW p

/-- What a word decodes to is well formed. -/
theorem decodeWord_wellFormed {tmoW w : Nat} {i : Instr} (h : decodeWord tmoW w = .ok i) : i.wellFormed tmoW = true := by
  unfold decodeWord at h
  split_ifs at h
  · exact decodeCommandPayload_wellFormed h
  · obtain ⟨b, -, rfl⟩ := decodeBytePayload_ok.mp h
    rfl
  all_goals
    obtain ⟨-, rfl⟩ := decodeBare_ok.mp h
    rfl

theorem decode_wellFormed {tmoW : Nat} {bs rest : List Byte} {i : Instr} (h : decode tmoW bs = .ok (i, rest)) :
    i.wellFormed tmoW = true := by
  unfold decode at h
  split_ifs at h
  split at h
  · next j hj =>
    obtain ⟨rfl, -⟩ := Prod.mk.inj (Except.ok.inj h)
    exact decodeWord_wellFormed hj
  · cases h

theorem decodeTableWord_wellFormed {nbits w : Nat} {i : Instr} (h : decodeTableWord nbits w = some i) :
    i.wellFormed Config.tableTmoW = true := by
  unfold decodeTableWord at h
  split_ifs at h
  · obtain rfl := Option.some.inj h
    rfl
  · split at h
    · next j rest hj =>
      obtain rfl := Option.some.inj h
      exact decode_wellFormed hj
    · cases h

theorem State.idleForCommand_of_idle {s : State} (h : s.phase = .idle) : s.idleForCommand = s := if_pos h

theorem State.idleForCommand_phase (s : State) : s.idleForCommand.phase = .idle := by
  unfold State.idleForCommand
  split_ifs with h
  · exact h
  · rfl

theorem State.idleForCommand_params (s : State) : s.idleForCommand.params = s.params := by
  unfold State.idleForCommand
  split_ifs <;> rfl

theorem State.openForChannel_of_attempt {s : State} (h : s.phase = .hdr ∨ s.phase = .body) : s.openForChannel = s := if_pos h

theorem State.openForChannel_phase (s : State) : s.openForChannel.phase = .hdr ∨ s.openForChannel.phase = .body := by
  unfold State.openForChannel
  split_ifs with h
  · exact h
  · exact .inl rfl

/-- A placed command runs in the state that was made ready for it. -/
theorem step_offerCommand {s : State} {i : Instr} {w : CmdWord} (hi : i.wellFormed s.params.tmoW = true)
    (hw : encodeCommand s.params.tmoW i = some w) : step (s.offerCommand w) = exec i s.idleForCommand := by
  have hdec : decodeCommand (s.offerCommand w).params.tmoW w = i := by
    rw [show (s.offerCommand w).params = s.params from s.idleForCommand_params]
    exact (decodeCommand_of_encodeCommand hi hw).2
  exact (step_of_host (s := s.offerCommand w) s.idleForCommand_phase rfl rfl).trans
    (congrArg (exec · s.idleForCommand) hdec)

/-- A placed channel event runs in the state that was made ready for it, its offer taken. -/
theorem step_offerChan (s : State) (o : ChanOffer) :
    step (s.offerChan o) = exec o.event (s.openForChannel.afterChan o s.openForChannel.env.chan) := by
  refine (step_of_chan (s := s.offerChan o) s.openForChannel_phase rfl rfl).trans (congrArg (exec o.event) ?_)
  unfold State.offerChan
  generalize s.openForChannel = t
  cases o <;> rfl

/-- A word that decodes places its event. -/
theorem State.withFetchWord_of_decode {s : State} {nbits w : Nat} {i : Instr} (h : decodeTableWord nbits w = some i) :
    s.withFetchWord nbits w = s.offer i := by
  unfold State.withFetchWord
  rw [h]

/-- The event that is placed is the next, in a state where it is enabled. -/
theorem step_offer {s : State} {i : Instr} (hi : i.wellFormed s.params.tmoW = true) :
    ∃ u : State, step (s.offer i) = exec i u ∧ u.Enabled i ∧
      (s.Enabled i → fits s.params.tsW s.inp.now = true → u = s) := by
  cases i with
  | cmd0 arg => exact ⟨_, step_offerCommand hi rfl, s.idleForCommand_phase, fun h _ => State.idleForCommand_of_idle h⟩
  | connect arg => exact ⟨_, step_offerCommand hi rfl, s.idleForCommand_phase, fun h _ => State.idleForCommand_of_idle h⟩
  | disconnect arg => exact ⟨_, step_offerCommand hi rfl, s.idleForCommand_phase, fun h _ => State.idleForCommand_of_idle h⟩
  | read arg => exact ⟨_, step_offerCommand hi rfl, s.idleForCommand_phase, fun h _ => State.idleForCommand_of_idle h⟩
  | rx b =>
    refine ⟨_, step_offerChan s _, s.openForChannel_phase, fun h hfit => ?_⟩
    rw [State.openForChannel_of_attempt h, State.afterChan, lowBits_of_fits hfit]
  | expire => exact ⟨_, step_offerChan s _, s.openForChannel_phase, fun h _ => by rw [State.openForChannel_of_attempt h]; rfl⟩
  | ioerr => exact ⟨_, step_offerChan s _, s.openForChannel_phase, fun h _ => by rw [State.openForChannel_of_attempt h]; rfl⟩
  | reset => exact ⟨s, step_of_reset rfl, trivial, fun _ _ => rfl⟩

/-- Settles O19: the word's event is well formed for the machine, and a placed event is the next. -/
theorem placedWordRunsNext : Obligations.PlacedWordRunsNext := by
  intro s nbits w i hdec hwidth
  rw [State.withFetchWord_of_decode hdec]
  refine step_offer ?_
  rcases hwidth with hw | hw
  · rw [hw]
    exact decodeTableWord_wellFormed hdec
  · exact hw

end Sys2Proof.Machine
end

section
/-!
PROOFS. Every enabled event is executed under R32; what every step and every run from reset keeps (R5, R21, R24, R27, R28, R32).
-/

namespace Sys2Proof.Machine

/-! ## No event stops under R32 -/

/-- The bytes that the attempt has taken, in order; a slot without a value, which R32 rules out below the count, reads as 0. -/
def State.bytesTaken (s : State) : List Byte := (List.range (rxSlot s)).map fun i => (Memory.slot s.buf i).getD 0#8

@[simp] theorem State.length_bytesTaken (s : State) : s.bytesTaken.length = rxSlot s := by
  simp [State.bytesTaken]

/-- Under R32 the buffer holds the bytes taken. -/
theorem State.Inv.holds_bytesTaken {s : State} (h : s.Inv) : Memory.Holds s.buf s.bytesTaken := by
  intro i hi
  rw [State.length_bytesTaken] at hi
  obtain ⟨b, hb⟩ := Option.isSome_iff_exists.mp ((h.filled i).mpr hi)
  simp [State.bytesTaken, List.getD_eq_getElem?_getD, hi, hb]

/-- Under R32 the 32nd byte is judged, as valid or as invalid. -/
theorem State.Inv.exec_rx_last {s : State} (h : s.Inv) (hp : s.phase = .body) (hn : rxSlot s = 31) (b : Byte) :
    ∃ t : State, exec (.rx b) s = .next t ∧ s.SessionKept t ∧ s.OutsideKept t ∧
      ((frameValid (s.bytesTaken ++ [b]) ∧ t.Ended .ok (some (frameMeasurement (s.bytesTaken ++ [b]) s.inp.now))) ∨
       (¬frameValid (s.bytesTaken ++ [b]) ∧ t.Ended .csumFail none)) := by
  have hlen : s.bytesTaken.length = 31 := s.length_bytesTaken.trans hn
  exact completionChecksTheFrame s s.bytesTaken b h hp hlen fun i hi => h.holds_bytesTaken i (hlen.symm ▸ hi)

/-- Under R32 an RX is executed in either phase: every slot that it reads holds a byte. -/
theorem State.Inv.exec_rx {s : State} (h : s.Inv) (hp : s.phase = .hdr ∨ s.phase = .body) (b : Byte) :
    ∃ t : State, exec (.rx b) s = .next t := by
  rcases hp with hp | hp
  · by_cases hn : rxSlot s = 1
    · obtain ⟨b0, h0⟩ := Option.isSome_iff_exists.mp ((h.filled 0).mpr (Nat.zero_lt_one.trans_eq hn.symm))
      by_cases hm : b0 = Config.magic0 ∧ b = Config.magic1
      · exact ⟨_, rule_exec (.headerMatch b hp hn (hm.1 ▸ h0) hm.2)⟩
      · exact ⟨_, rule_exec (.headerMismatch b b0 hp hn h0 hm)⟩
    · exact ⟨_, rule_exec (.headerByte b hp h.cnt_lt hn)⟩
  · by_cases hn : rxSlot s = 31
    · obtain ⟨t, ht, -⟩ := h.exec_rx_last hp hn b
      exact ⟨t, ht⟩
    · exact ⟨_, rule_exec (.bodyByte b hp h.cnt_lt hn)⟩

/-- Settles O14: each enabled event meets the hypotheses of one of its rules. -/
theorem enabledEventsComplete : Obligations.EnabledEventsComplete := by
  intro s i h hi
  cases i with
  | cmd0 arg => exact ⟨_, rule_exec (.cmd0 arg hi)⟩
  | connect arg =>
    cases hs : s.session with
    | conn => exact ⟨_, rule_exec (.connectTwice arg hi hs)⟩
    | disc =>
      cases hc : s.inp.chOk with
      | true => exact ⟨_, rule_exec (.connectOpens arg hi hs hc)⟩
      | false => exact ⟨_, rule_exec (.connectFails arg hi hs hc)⟩
  | disconnect arg => exact ⟨_, rule_exec (.disconnect arg hi)⟩
  | read arg =>
    cases hs : s.session with
    | conn => exact ⟨_, rule_exec (.readStarts arg hi hs)⟩
    | disc => exact ⟨_, rule_exec (.readClosed arg hi hs)⟩
  | rx b => exact h.exec_rx hi b
  | expire => exact ⟨_, rule_exec (.expire hi)⟩
  | ioerr => exact ⟨_, rule_exec (.ioerr hi)⟩
  | reset => exact ⟨_, exec_reset s⟩

/-- An executed event leaves a legal phase. -/
theorem exec_legalPhase {s t : State} {i : Instr} (h : exec i s = .next t) : t.phase ≠ .unused := by
  cases exec_effect h with
  | resets hi ht => subst ht; exact Phase.noConfusion
  | goesOn hphase hlast hquiet hsession houtside hbuf => rcases hphase with hp | hp <;> rw [hp] <;> decide
  | ends st m u ht hst houtside hmeas hjudged => subst ht; exact Phase.noConfusion

theorem exec_of_unused {s : State} {i : Instr} (hp : s.phase = .unused) (hi : i ≠ .reset) :
    exec i s = .fault .illegalPhase := by
  cases i with
  | cmd0 arg => exact (exec_cmd0 arg s).trans (acceptCommand_unused hp)
  | connect arg => exact (acceptCommand_unused hp : execConnect arg s = _)
  | disconnect arg => exact (exec_disconnect arg s).trans (acceptCommand_unused hp)
  | read arg => exact (acceptCommand_unused hp : execRead arg s = _)
  | rx b => exact (exec_rx b s).trans (channelEvent_unused hp)
  | expire => exact (exec_expire s).trans (channelEvent_unused hp)
  | ioerr => exact (exec_ioerr s).trans (channelEvent_unused hp)
  | reset => exact absurd rfl hi

/-- Settles O15: no effect leaves the phase value 3, and both gates fault on it. -/
theorem unusedPhaseFaults : Obligations.UnusedPhaseFaults :=
  ⟨fun _ _ _ => exec_legalPhase, fun _ _ => exec_of_unused, fun _ => step_of_unused⟩

/-! ## The held result (R27, R28) -/

theorem State.ResultInv.of_sameBlock {s u : State} (h : s.ResultInv) (hb : s.SameBlock u) : u.ResultInv := by
  obtain ⟨-, -, hphase, -, -, -, -, hlast, hstrobe⟩ := hb
  unfold State.ResultInv
  rw [hphase, hlast, hstrobe]
  exact h

/-- Without the strobe only the held result matters. -/
theorem State.resultInv_of_quiet {t : State} (hlast : ∀ r, t.last = some r → r.Sound) (hq : t.resValid = false) :
    t.ResultInv := ⟨hlast, fun h => absurd (hq.symm.trans h) Bool.false_ne_true⟩

theorem exec_keeps_resultInv {s t : State} {i : Instr} (h : s.ResultInv) (he : exec i s = .next t) : t.ResultInv := by
  cases exec_effect he with
  | resets hi ht =>
    subst ht
    exact State.resultInv_of_quiet (fun _ hr => nomatch hr) rfl
  | goesOn hphase hlast hquiet hsession houtside hbuf => exact State.resultInv_of_quiet (hlast ▸ h.1) hquiet
  | ends st m u ht hst houtside hmeas hjudged =>
    subst ht
    refine ⟨fun r hr => ?_, fun _ => ⟨Option.some_ne_none _, rfl⟩⟩
    obtain rfl := Option.some.inj hr
    refine ⟨hst, fun hm => ?_, fun x hx => ?_⟩
    · obtain ⟨x, hx⟩ := Option.ne_none_iff_exists'.mp hm
      exact (hmeas x hx).1
    · obtain ⟨-, h1, h25, h10, -⟩ := hmeas x hx
      exact ⟨h1, h25, h10⟩

/-- Settles O29: fetching leaves the block alone, and each effect leaves a sound result. -/
theorem stepKeepsResultSound : Obligations.StepKeepsResultSound := by
  intro s t h hstep
  obtain ⟨i, u, -, hblock, he⟩ := step_cases_block hstep
  exact exec_keeps_resultInv (h.of_sameBlock hblock) he

/-! ## The frame buffer (R24; log 14) -/

/-- An executed event empties the buffer, or is an RX and stores its byte in slot `cnt`. -/
theorem exec_buf {s t : State} {i : Instr} (h : exec i s = .next t) :
    t.buf = Memory.empty ∨ ∃ b, i = .rx b ∧ rxSlot s < Config.frameLen ∧ t.buf = Memory.put s.buf (rxSlot s) b := by
  cases exec_effect h with
  | resets hi ht => subst ht; exact .inl rfl
  | goesOn hphase hlast hquiet hsession houtside hbuf =>
    rcases hbuf with ⟨-, hb⟩ | ⟨b, hi, hl, -, hb⟩
    · exact .inl hb
    · exact .inr ⟨b, hi, hl, hb⟩
  | ends st m u ht hst houtside hmeas hjudged => subst ht; exact .inl rfl

/-- Settles O30: both of the buffer's two fates are canonical. -/
theorem stepKeepsBufferCanonical : Obligations.StepKeepsBufferCanonical := by
  intro s t hwf hstep
  obtain ⟨i, u, -, ⟨-, -, -, -, -, hbuf, -⟩, he⟩ := step_cases_block hstep
  rcases exec_buf he with hb | ⟨b, -, hl, hb⟩ <;> rw [hb]
  · exact Memory.wf_empty
  · exact Memory.wf_put (hbuf ▸ hwf) b hl

/-- Settles O32: an emptied buffer holds no byte, and a stored byte is the RX's, in slot `cnt`. -/
theorem bytesEnterOnlyByRx : Obligations.BytesEnterOnlyByRx := by
  intro s t i he a v hv
  rcases exec_buf he with hb | ⟨b, rfl, -, hb⟩ <;> rw [hb] at hv
  · cases hv
  · rw [Memory.slot_put] at hv
    split_ifs at hv with ha
    · exact .inr ⟨ha.symm, by rw [Option.some.inj hv]⟩
    · exact .inl hv

/-! ## `session` and `tmo` (R20, R25) -/

/-- Who writes `session` and `tmo`. -/
theorem Rule.sessionWriters {s t : State} {i : Instr} (h : Rule s i t) :
    s.SessionKept t ∨ (i = .reset ∧ t.tmo = none) ∨ (∃ arg, i = .disconnect arg ∧ t.tmo = s.tmo) ∨
      ∃ arg, i = .connect arg ∧ s.session = .disc ∧ s.inp.chOk = true ∧ t.tmo = some arg := by
  cases h with
  | reset => exact .inr (.inl ⟨rfl, rfl⟩)
  | disconnect arg hp => exact .inr (.inr (.inl ⟨arg, rfl, rfl⟩))
  | connectOpens arg hp hs hc => exact .inr (.inr (.inr ⟨arg, rfl, hs, hc, rfl⟩))
  | cmd0 | connectTwice | connectFails | readClosed | readStarts | headerByte | headerMatch | headerMismatch | bodyByte
  | frameValid | frameInvalid | expire | ioerr => exact .inl ⟨rfl, rfl⟩

/-- Settles O33: every rule keeps both, but RESET's, DISCONNECT's and the one that opens the channel. -/
theorem sessionAndTimeoutWriters : Obligations.SessionAndTimeoutWriters := by
  intro s t i he
  rcases (exec_rule he).sessionWriters with ⟨hs, ht⟩ | ⟨hi, ht⟩ | ⟨arg, hi, ht⟩ | ⟨arg, hi, hs, hc, ht⟩
  · exact ⟨fun h => absurd hs h, fun h => absurd ht h⟩
  · exact ⟨fun _ => .inr (.inr hi), fun _ => .inr ⟨hi, ht⟩⟩
  · exact ⟨fun _ => .inr (.inl ⟨arg, hi⟩), fun h => absurd ht h⟩
  · exact ⟨fun _ => .inl ⟨arg, hi⟩, fun _ => .inl ⟨arg, hi, hs, hc, ht⟩⟩

/-! ## The widths (R5) -/

/-- The block is the same, and the `now` input still fits its port. -/
theorem State.WidthInv.of_sameBlock {s u : State} (h : s.WidthInv) (hb : s.SameBlock u)
    (hnow : fits s.params.tsW u.inp.now = true) : u.WidthInv := by
  obtain ⟨hpar, -, -, -, -, -, htmo, hlast, -⟩ := hb
  obtain ⟨hlegal, hfit, -, hheld⟩ := h
  constructor <;> simp only [hpar, htmo, hlast] <;> assumption

/-- A fetched `now` has the TS_W bits of its port (R60). -/
theorem fetch_now_fits {s u : State} {i : Instr} (hf : fetch s = .next (i, u)) (h : fits s.params.tsW s.inp.now = true) :
    fits s.params.tsW u.inp.now = true := by
  obtain ⟨-, ⟨-, hinp, -⟩ | ⟨-, o, rest, -, -, -, -, hnow⟩ | ⟨-, -, -, rfl⟩ | ⟨-, o, rest, -, -, rfl⟩⟩ := fetch_cases hf
  · rw [hinp]; exact h
  · rw [hnow]; exact h
  · exact h
  · cases o with
    | byte b now => exact fits_lowBits _ _
    | eof => exact h
    | windowEnd => exact h
    | error => exact h

/-- An executed event keeps `tmo` within TMO_W, its own `arg` having TMO_W bits. -/
theorem exec_keeps_tmo_fits {s t : State} {i : Instr} (he : exec i s = .next t) (hi : i.wellFormed s.params.tmoW = true)
    (h : ∀ x, s.tmo = some x → fits s.params.tmoW x = true) : ∀ x, t.tmo = some x → fits s.params.tmoW x = true := by
  intro x hx
  rcases (exec_rule he).sessionWriters with ⟨-, ht⟩ | ⟨-, ht⟩ | ⟨arg, -, ht⟩ | ⟨arg, rfl, -, -, ht⟩ <;> rw [ht] at hx
  · exact h x hx
  · cases hx
  · exact h x hx
  · obtain rfl := Option.some.inj hx
    exact hi

/-- An executed event keeps a held timestamp within TS_W, the `now` input having TS_W bits. -/
theorem exec_keeps_held_fits {s t : State} {i : Instr} (he : exec i s = .next t) (h : s.WidthInv) :
    ∀ r m, t.last = some r → r.meas = some m → fits s.params.tsW m.capturedAt = true := by
  intro r x hr hx
  cases exec_effect he with
  | resets hi ht => subst ht; cases hr
  | goesOn hphase hlast hquiet hsession houtside hbuf => exact h.held r x (hlast ▸ hr) hx
  | ends st m u ht hst houtside hmeas hjudged =>
    subst ht
    obtain rfl := Option.some.inj hr
    obtain ⟨-, -, -, -, hnow⟩ := hmeas x hx
    rw [hnow]
    exact h.now

/-- Settles O51: fetching keeps the `now` input within its port, and no event writes the widths. -/
theorem stepKeepsWidths : Obligations.StepKeepsWidths := by
  intro s t hstep
  obtain ⟨i, u, hf, hblock, he⟩ := step_cases_block hstep
  obtain ⟨hinp, -, hpar⟩ := exec_outsideKept he
  have hpu : u.params = s.params := hblock.1
  refine ⟨hpar.trans hpu, fun h => ?_⟩
  have hu : u.WidthInv := h.of_sameBlock hblock (fetch_now_fits hf h.now)
  have hwf : i.wellFormed u.params.tmoW = true := hpu ▸ fetch_wellFormed hf
  exact ⟨hpar ▸ hu.legal, hpar ▸ exec_keeps_tmo_fits he hwf hu.tmo, by rw [hpar, hinp]; exact hu.now,
    hpar ▸ exec_keeps_held_fits he hu⟩

/-! ## Runs from reset -/

theorem State.resultInv_resetWith (p : Params) (e : Env) (x : Inputs) :
    ({ State.resetWith p with env := e, inp := x } : State).ResultInv :=
  State.resultInv_of_quiet (fun _ hr => nomatch hr) rfl

theorem State.widthInv_resetWith {p : Params} (e : Env) {x : Inputs} (hp : p.legal = true) (hx : fits p.tsW x.now = true) :
    ({ State.resetWith p with env := e, inp := x } : State).WidthInv :=
  ⟨hp, fun _ h => (nomatch h), hx, fun _ _ h => (nomatch h)⟩

/-- Settles O27: the reset values, whatever stands in the inputs and the environment. -/
theorem resetStateSatisfiesInvariants : Obligations.ResetStateSatisfiesInvariants :=
  ⟨rfl, fun p e x => ⟨State.inv_resetWith p e x, State.resultInv_resetWith p e x, State.widthInv_resetWith e⟩⟩

/-- A run is its first step and the rest. -/
theorem steps_succ_of_step {s t : State} (h : step s = .next t) (k : Nat) : steps (k + 1) s = steps k t := by
  rw [steps, h]

theorem steps_one_of_step {s t : State} (h : step s = .next t) : steps 1 s = .next t := steps_succ_of_step h 0

theorem steps_succ_cases {k : Nat} {s t : State} (h : steps (k + 1) s = .next t) :
    ∃ u, step s = .next u ∧ steps k u = .next t := by
  rw [steps] at h
  cases hs : step s with
  | next u => exact ⟨u, rfl, by rwa [hs] at h⟩
  | fault f => rw [hs] at h; cases h
  | refused r => rw [hs] at h; cases h

/-- What every step keeps, every run keeps. -/
theorem steps_keep {P : State → Prop} (hstep : ∀ s t, P s → step s = .next t → P t) {k : Nat} {s t : State} (hs : P s)
    (h : steps k s = .next t) : P t := by
  induction k generalizing s with
  | zero => exact Host.Outcome.next.inj h ▸ hs
  | succ k ih =>
    obtain ⟨u, hu, hk⟩ := steps_succ_cases h
    exact ih (hstep s u hs hu) hk

/-- The event that is fetched is enabled. -/
theorem fetch_enabled {s u : State} {i : Instr} (h : fetch s = .next (i, u)) : u.Enabled i := by
  obtain ⟨⟨-, -, hphase, -⟩, hcase⟩ := fetch_cases h
  rcases hcase with ⟨rfl, -⟩ | ⟨hp, o, rest, -, rfl, -⟩ | ⟨hp, -, rfl, -⟩ | ⟨hp, o, rest, -, rfl, -⟩
  · trivial
  · have hidle : u.phase = .idle := hphase.trans hp
    rcases op_cases (cmdOp s.params.tmoW o.word) with hop | hop | hop | hop
    · rw [decodeCommand_of_opCmd0 hop]; exact hidle
    · rw [decodeCommand_of_opConnect hop]; exact hidle
    · rw [decodeCommand_of_opDisconnect hop]; exact hidle
    · rw [decodeCommand_of_opRead hop]; exact hidle
  · rw [← hphase] at hp
    exact hp
  · rw [← hphase] at hp
    cases o <;> exact hp

theorem fetchLateReset_ne_fault (s : State) (f : Fault) : fetchLateReset s ≠ .fault f := by
  unfold fetchLateReset
  split <;> exact nofun

theorem fetchHost_ne_fault (s : State) (f : Fault) : fetchHost s ≠ .fault f := by
  unfold fetchHost
  split
  · exact fetchLateReset_ne_fault s f
  · exact nofun

/-- Fetching faults on the phase value 3 only. -/
theorem fetch_fault_unused {s : State} {f : Fault} (h : fetch s = .fault f) : s.phase = .unused := by
  unfold fetch at h
  split_ifs at h
  split at h
  · exact absurd h (fetchHost_ne_fault s.dropRst f)
  · cases h
  · cases h
  · assumption

/-- Under R32 no step faults. -/
theorem State.Inv.step_ne_fault {s : State} (h : s.Inv) (f : Fault) : step s ≠ .fault f := by
  intro hstep
  unfold step at hstep
  cases hf : fetch s with
  | next p =>
    obtain ⟨i, u⟩ := p
    rw [hf] at hstep
    obtain ⟨t, ht⟩ := enabledEventsComplete u i (h.of_sameBlock (fetch_cases hf).1) (fetch_enabled hf)
    cases ht.symm.trans hstep
  | fault g => exact h.legalPhase (fetch_fault_unused hf)
  | refused r => rw [hf] at hstep; cases hstep

/-- Under R32 no run faults. -/
theorem State.Inv.steps_ne_fault {s : State} (h : s.Inv) (k : Nat) (f : Fault) : steps k s ≠ .fault f := by
  induction k generalizing s with
  | zero => exact nofun
  | succ k ih =>
    cases hs : step s with
    | next t => rw [steps_succ_of_step hs]; exact ih (stepKeepsInvariant s t h hs)
    | fault g => exact absurd hs (h.step_ne_fault g)
    | refused r => rw [steps, hs]; exact nofun

/-- Settles O31: what holds at reset and every step keeps. -/
theorem reachableStatesSatisfyInvariants : Obligations.ReachableStatesSatisfyInvariants := by
  intro p e x k
  have hinv := State.inv_resetWith p e x
  refine ⟨hinv.steps_ne_fault k, fun t ht => ⟨?_, ?_, ?_, fun hp hx => ?_⟩⟩
  · exact steps_keep stepKeepsInvariant hinv ht
  · exact steps_keep stepKeepsResultSound (State.resultInv_resetWith p e x) ht
  · exact steps_keep (P := fun t => t.params = p) (fun s t hs hstep => (stepKeepsWidths s t hstep).1.trans hs) rfl ht
  · exact steps_keep (fun s t hs hstep => (stepKeepsWidths s t hstep).2 hs) (State.widthInv_resetWith e hp hx) ht

end Sys2Proof.Machine
end

section
/-!
PROOFS. Which results an event gives, and which parts of the state no event reads (R5, R25, R27, R85, R124, R142).
-/

namespace Sys2Proof.Machine

/-! ## Results (R27, R85, R124) -/

/-- Settles O34: of the three effects only completion raises the strobe, and only it and RESET change the held result. -/
theorem resultsComeFromCompletion : Obligations.ResultsComeFromCompletion := by
  intro s t i he
  cases exec_effect he with
  | resets hi ht =>
    subst ht
    exact ⟨nofun, fun _ => .inr ⟨hi, rfl⟩⟩
  | goesOn hphase hlast hquiet hsession houtside hbuf =>
    exact ⟨fun h => absurd (hquiet.symm.trans h) Bool.false_ne_true, fun _ => .inl hlast⟩
  | ends st m u ht hst houtside hmeas hjudged =>
    subst ht
    refine ⟨fun _ => ⟨st, m, finish_ended st m u, fun hm => ?_⟩, nofun⟩
    obtain ⟨x, hx⟩ := Option.ne_none_iff_exists'.mp hm
    obtain ⟨hp, -, hrx⟩ := hjudged (.inl hm)
    exact ⟨(hmeas x hx).1, hp, hrx⟩

/-- Settles O35: in an attempt only a judged frame gives OK or CSUM_FAIL. -/
theorem shortAttemptsAreNotValidated : Obligations.ShortAttemptsAreNotValidated := by
  intro s t i r hp he hstrobe hlast hst
  have hbusy : s.phase ≠ .idle := by rcases hp with hp | hp <;> rw [hp] <;> decide
  cases exec_effect he with
  | resets hi ht => subst ht; cases hstrobe
  | goesOn hphase hlast' hquiet hsession houtside hbuf => exact absurd (hquiet.symm.trans hstrobe) Bool.false_ne_true
  | ends st m u ht hne houtside hmeas hjudged =>
    subst ht
    obtain rfl := Option.some.inj hlast
    obtain ⟨hbody, hn, hrx⟩ := hjudged (.inr ⟨hbusy, hst⟩)
    exact ⟨hbody, BitVec.eq_of_toNat_eq hn, hrx⟩

/-! ## What no event reads (R5, R25, R142) -/

/-- The state with other widths, another `tmo` and another `now` input. -/
def State.withUnread (s : State) (p : Params) (x : Option Ticks) (now : Timestamp) : State :=
  { s with params := p, tmo := x, inp := { s.inp with now := now } }

/-- A rule goes through whatever the widths, `tmo` and, unless it makes a Measurement, `now` are, and writes the same. -/
theorem Rule.withUnread {s t : State} {i : Instr} (h : Rule s i t) (p : Params) (x : Option Ticks) (now : Timestamp)
    (hnow : now = s.inp.now ∨ (t.resValid = true → t.lastMeas = none)) :
    ∃ y, Rule (s.withUnread p x now) i (t.withUnread p y now) ∧ (x = s.tmo → y = t.tmo) := by
  cases h with
  | reset => exact ⟨none, .reset, fun _ => rfl⟩
  | cmd0 arg hp => exact ⟨x, .cmd0 arg hp, id⟩
  | connectTwice arg hp hs => exact ⟨x, .connectTwice arg hp hs, id⟩
  | connectOpens arg hp hs hc => exact ⟨some arg, .connectOpens arg hp hs hc, fun _ => rfl⟩
  | connectFails arg hp hs hc => exact ⟨x, .connectFails arg hp hs hc, id⟩
  | disconnect arg hp => exact ⟨x, .disconnect arg hp, id⟩
  | readClosed arg hp hs => exact ⟨x, .readClosed arg hp hs, id⟩
  | readStarts arg hp hs => exact ⟨x, .readStarts arg hp hs, id⟩
  | headerByte b hp hl hn => exact ⟨x, .headerByte b hp hl hn, id⟩
  | headerMatch b hp hn h0 h1 => exact ⟨x, .headerMatch b hp hn h0 h1, id⟩
  | headerMismatch b b0 hp hn h0 h1 => exact ⟨x, .headerMismatch b b0 hp hn h0 h1, id⟩
  | bodyByte b hp hl hn => exact ⟨x, .bodyByte b hp hl hn, id⟩
  | frameValid b m hp hn hv hm =>
    rcases hnow with rfl | hno
    · exact ⟨x, .frameValid b m hp hn hv hm, id⟩
    · exact absurd (hno rfl) (Option.some_ne_none m)
  | frameInvalid b hp hn hv => exact ⟨x, .frameInvalid b hp hn hv, id⟩
  | expire hp => exact ⟨x, .expire hp, id⟩
  | ioerr hp => exact ⟨x, .ioerr hp, id⟩

/-- Settles O36: a rule that makes no Measurement goes through with any `now`. -/
theorem nowMattersOnlyToAMeasurement : Obligations.NowMattersOnlyToAMeasurement := by
  intro s t i now he hno
  obtain ⟨y, hr, hy⟩ := (exec_rule he).withUnread s.params s.tmo now (.inr hno)
  obtain ⟨-, -, hpar⟩ := exec_outsideKept he
  have ht : t.withUnread s.params t.tmo now = { t with inp := { t.inp with now := now } } := by rw [← hpar]; rfl
  rw [hy rfl, ht] at hr
  exact rule_exec hr

/-- Settles O37: every rule goes through with any `tmo`. -/
theorem timeoutIsNotRead : Obligations.TimeoutIsNotRead := by
  intro s t i x he
  obtain ⟨y, hr, -⟩ := (exec_rule he).withUnread s.params x s.inp.now (.inl rfl)
  obtain ⟨hinp, -, hpar⟩ := exec_outsideKept he
  refine ⟨t.withUnread s.params y s.inp.now, rule_exec hr, ?_⟩
  rw [← hpar, ← hinp]
  rfl

/-- Settles O52: every rule goes through in any widths. -/
theorem widthsChangeNoRule : Obligations.WidthsChangeNoRule := by
  intro s t i p he
  obtain ⟨y, hr, hy⟩ := (exec_rule he).withUnread p s.tmo s.inp.now (.inl rfl)
  obtain ⟨hinp, -, -⟩ := exec_outsideKept he
  have ht : t.withUnread p t.tmo s.inp.now = { t with params := p } := by rw [← hinp]; rfl
  rw [hy rfl, ht] at hr
  exact rule_exec hr

end Sys2Proof.Machine
end

section
/-!
PROOFS. The checksum and the decoder: the range of the sum, one changed byte, and the bytes that a Measurement reads (R123, R125,
R144).
-/

namespace Sys2Proof.Machine

/-! ## The range of the sum (R123) -/

theorem sum_bytes_le (bs : List Byte) : (bs.map BitVec.toNat).sum ≤ 255 * bs.length := by
  induction bs with
  | nil => rfl
  | cons b bs ih =>
    have hb : b.toNat < 256 := b.isLt
    rw [List.map_cons, List.sum_cons, List.length_cons]
    omega

/-- Thirty bytes that begin with the header sum to at least the header and at most the header and 28 times 255. -/
theorem sum_range_of_magic {bs : List Byte} (hlen : 30 ≤ bs.length) (h0 : bs.getD 0 0#8 = Config.magic0)
    (h1 : bs.getD 1 0#8 = Config.magic1) :
    0x008F ≤ ((bs.take 30).map BitVec.toNat).sum ∧ ((bs.take 30).map BitVec.toNat).sum ≤ 0x1C73 := by
  obtain ⟨b0, b1, rest, rfl⟩ : ∃ b0 b1 rest, bs = b0 :: b1 :: rest := by
    match bs, hlen with
    | b0 :: b1 :: rest, _ => exact ⟨b0, b1, rest, rfl⟩
  obtain rfl : b0 = Config.magic0 := h0
  obtain rfl : b1 = Config.magic1 := h1
  have hrest := sum_bytes_le (rest.take 28)
  have hlen' : (rest.take 28).length ≤ 28 := List.length_take_le 28 rest
  have hsum : (((Config.magic0 :: Config.magic1 :: rest).take 30).map BitVec.toNat).sum =
      0x008F + ((rest.take 28).map BitVec.toNat).sum := by
    rw [List.take_succ_cons, List.take_succ_cons, List.map_cons, List.map_cons, List.sum_cons, List.sum_cons, ← Nat.add_assoc]
    rfl
  omega

/-- Under R32 the sum at the 32nd byte is in the range. -/
theorem State.Inv.acc_range {s : State} (h : s.Inv) (hp : s.phase = .body) (hn : rxSlot s = 31) :
    0x008F ≤ s.acc.toNat ∧ s.acc.toNat ≤ 0x1C73 := by
  have hholds := h.holds_bytesTaken
  have hlen : s.bytesTaken.length = 31 := s.length_bytesTaken.trans hn
  obtain ⟨hm0, hm1⟩ := h.bodyMagic hp
  have h0 : s.bytesTaken.getD 0 0#8 = Config.magic0 := Option.some.inj ((hholds 0 (by omega)).symm.trans hm0)
  have h1 : s.bytesTaken.getD 1 0#8 = Config.magic1 := Option.some.inj ((hholds 1 (by omega)).symm.trans hm1)
  obtain ⟨hlo, hhi⟩ := sum_range_of_magic (by omega) h0 h1
  have hacc : s.acc.toNat = ((s.bytesTaken.take 30).map BitVec.toNat).sum % 65536 :=
    calc s.acc.toNat = (slotSum s.buf (min (rxSlot s) Config.summedLen)).toNat := congrArg BitVec.toNat h.accSum
      _ = (slotSum s.buf 30).toNat := by rw [hn]; rfl
      _ = ((s.bytesTaken.take 30).map BitVec.toNat).sum % 65536 := hholds.slotSum_toNat (by omega)
  omega

/-- Settles O39: a field outside the range of the sum is not the sum. -/
theorem checksumRange : Obligations.ChecksumRange := by
  intro s h hp hc
  obtain ⟨hlo, hhi⟩ := h.acc_range hp (rxSlot_of_cnt hc)
  refine ⟨hlo, hhi, fun hi lo h30 hout => ?_⟩
  have hne : s.acc ≠ be16 hi lo := fun heq => by rw [← heq] at hout; omega
  obtain ⟨t, ht, hend, -⟩ := exec_rx_invalid lo hp hc h30 hne
  exact ⟨t, ht, hend⟩

/-! ## One changed byte (R125) -/

/-- The two bytes of a field are determined by it. -/
theorem be16_inj {hi lo hi' lo' : Byte} (h : be16 hi lo = be16 hi' lo') : hi = hi' ∧ lo = lo' := by
  have hnat := congrArg BitVec.toNat h
  rw [be16_toNat, be16_toNat] at hnat
  have h1 : lo.toNat < 256 := lo.isLt
  have h2 : lo'.toNat < 256 := lo'.isLt
  exact ⟨BitVec.eq_of_toNat_eq (by omega), BitVec.eq_of_toNat_eq (by omega)⟩

/-- The sum after one byte is changed. -/
theorem sum_set {bs : List Byte} {i : Nat} (hi : i < bs.length) (v : Byte) :
    ((bs.set i v).map BitVec.toNat).sum + (bs.getD i 0#8).toNat = (bs.map BitVec.toNat).sum + v.toNat := by
  induction bs generalizing i with
  | nil => cases hi
  | cons b bs ih =>
    cases i with
    | zero => simp only [List.set_cons_zero, List.map_cons, List.sum_cons, List.getD_cons_zero]; omega
    | succ i =>
      have := ih (Nat.lt_of_succ_lt_succ hi)
      simp only [List.set_cons_succ, List.map_cons, List.sum_cons, List.getD_cons_succ]
      omega

theorem getD_set_same {bs : List Byte} {i : Nat} (hi : i < bs.length) (v : Byte) : (bs.set i v).getD i 0#8 = v := by
  rw [List.getD_eq_getElem?_getD, List.getElem?_set_self hi, Option.getD_some]

theorem getD_set_other (bs : List Byte) {i j : Nat} (h : i ≠ j) (v : Byte) : (bs.set i v).getD j 0#8 = bs.getD j 0#8 := by
  rw [List.getD_eq_getElem?_getD, List.getElem?_set_ne h, List.getD_eq_getElem?_getD]

/-- A byte changed among those that are summed: the field stays, and the sum changes by less than 256. -/
theorem frameValid_set_summed {bs : List Byte} {i : Nat} {v : Byte} (h : frameValid bs) (hi : i < Config.summedLen)
    (hv : frameValid (bs.set i v)) : v = bs.getD i 0#8 := by
  obtain ⟨hlen, hsum⟩ := h
  obtain ⟨-, hsum'⟩ := hv
  have hlt : i < 30 := hi
  rw [getD_set_other bs (by omega), getD_set_other bs (by omega), ← hsum, List.take_set] at hsum'
  have htake : (bs.take Config.summedLen).getD i 0#8 = bs.getD i 0#8 := by
    rw [List.getD_eq_getElem?_getD, List.getElem?_take_of_lt hi, List.getD_eq_getElem?_getD]
  have hset := sum_set (bs := bs.take Config.summedLen) (i := i) (by rw [List.length_take, hlen]; exact hi) v
  rw [htake] at hset
  have h1 : v.toNat < 256 := v.isLt
  have h2 : (bs.getD i 0#8).toNat < 256 := (bs.getD i 0#8).isLt
  exact BitVec.eq_of_toNat_eq (by omega)

/-- A byte of the checksum field changed: the sum stays, and the field changes. -/
theorem frameValid_set_field {bs : List Byte} {i : Nat} {v : Byte} (h : frameValid bs) (hi : i = 30 ∨ i = 31)
    (hv : frameValid (bs.set i v)) : v = bs.getD i 0#8 := by
  obtain ⟨hlen, hsum⟩ := h
  obtain ⟨-, hsum'⟩ := hv
  have hlt : i < bs.length := by rw [hlen]; rcases hi with rfl | rfl <;> decide
  have hge : Config.summedLen ≤ i := by rcases hi with rfl | rfl <;> decide
  rw [List.take_set_of_le hge, hsum] at hsum'
  obtain ⟨h30, h31⟩ := be16_inj (BitVec.eq_of_toNat_eq hsum')
  rcases hi with rfl | rfl
  · rw [h30, getD_set_same hlt]
  · rw [h31, getD_set_same hlt]

/-- Settles O40: the byte is summed, or it is one of the field's two. -/
theorem oneChangedByteIsCaught : Obligations.OneChangedByteIsCaught := by
  intro bs i v h hi hne hv
  by_cases hlt : i < Config.summedLen
  · exact hne (frameValid_set_summed h hlt hv)
  · have hge : 30 ≤ i := Nat.le_of_not_lt hlt
    exact hne (frameValid_set_field h (by omega) hv)

/-! ## The bytes that a Measurement reads (R144) -/

theorem be16At_congr {m n : Memory} {i : Nat} (h0 : Memory.slot m i = Memory.slot n i)
    (h1 : Memory.slot m (i + 1) = Memory.slot n (i + 1)) : be16At m i = be16At n i := by
  unfold be16At readSlot
  rw [h0, h1]

/-- The decoder reads slots 4 to 9 only. -/
theorem decodeFields_congr {m n : Memory} (h : ∀ a, 4 ≤ a → a ≤ 9 → Memory.slot m a = Memory.slot n a) (now : Timestamp) :
    decodeFields m now = decodeFields n now := by
  have field (i : Nat) (hlo : 4 ≤ i) (hhi : i ≤ 8) : be16At m i = be16At n i :=
    be16At_congr (h i hlo (by omega)) (h (i + 1) (by omega) (by omega))
  unfold decodeFields
  rw [field Config.pm1Pos (by decide) (by decide), field Config.pm25Pos (by decide) (by decide),
    field Config.pm10Pos (by decide) (by decide)]

/-- A 32nd byte that leaves a Measurement was decoded. -/
theorem exec_rx_measured {s t : State} {b : Byte} (hp : s.phase = .body) (hc : s.cnt = 31#6)
    (he : exec (.rx b) s = .next t) (hm : t.resMeasValid = true) :
    ∃ m, decodeFields (Memory.put s.buf 31 b) s.inp.now = .ok m ∧ t.last = some { status := .ok, meas := some m } := by
  have hn : rxSlot s = 31 := rxSlot_of_cnt hc
  cases exec_rule he with
  | headerByte _ hp' hl hn' => rw [hp] at hp'; cases hp'
  | headerMatch _ hp' hn' h0 h1 => rw [hp] at hp'; cases hp'
  | headerMismatch _ b0 hp' hn' h0 h1 => rw [hp] at hp'; cases hp'
  | bodyByte _ hp' hl hn' => exact absurd hn hn'
  | frameValid _ m hp' hn' hv hm' => exact ⟨m, hm', rfl⟩
  | frameInvalid _ hp' hn' hv => cases hm

/-- Settles O41: both Measurements are decoded from the same six slots and the same `now`. -/
theorem undecodedBytesDoNotMatter : Obligations.UndecodedBytesDoNotMatter := by
  intro s s' t t' b b' hp hp' hc hc' hslots hnow he he' hm hm'
  obtain ⟨m, hdec, hlast⟩ := exec_rx_measured hp hc he hm
  obtain ⟨m', hdec', hlast'⟩ := exec_rx_measured hp' hc' he' hm'
  have hsame : ∀ a, 4 ≤ a → a ≤ 9 → Memory.slot (Memory.put s.buf 31 b) a = Memory.slot (Memory.put s'.buf 31 b') a :=
    fun a hlo hhi => by
      rw [Memory.slot_put_other _ _ (by omega), Memory.slot_put_other _ _ (by omega)]
      exact hslots a hlo hhi
  rw [decodeFields_congr hsame, hnow, hdec'] at hdec
  rw [hlast, hlast', Except.ok.inj hdec]

end Sys2Proof.Machine
end

section
/-!
PROOFS. Whole attempts: an attempt goes on or ends in each step, takes 32 bytes or 2, and ends once; every command gets one result
(R46, R86, R87, R100 to R112, R186; log 6 and 7).
-/

namespace Sys2Proof.Machine

/-! ## What a step of an attempt keeps -/

/-- What the steps of an attempt keep: R32, the low reset line, the session, the host's commands and the widths. -/
structure State.KeptInAttempt (s t : State) : Prop where
  inv : t.Inv
  noReset : t.NoReset
  session : s.SessionKept t
  host : t.env.host = s.env.host
  params : t.params = s.params

theorem State.KeptInAttempt.refl {s : State} (h : s.Inv) (hno : s.NoReset) : s.KeptInAttempt s :=
  ⟨h, hno, ⟨rfl, rfl⟩, rfl, rfl⟩

theorem State.SessionKept.trans {s t u : State} (h : s.SessionKept t) (h' : t.SessionKept u) : s.SessionKept u :=
  ⟨h'.1.trans h.1, h'.2.trans h.2⟩

theorem State.KeptInAttempt.trans {s t u : State} (h : s.KeptInAttempt t) (h' : t.KeptInAttempt u) : s.KeptInAttempt u :=
  ⟨h'.inv, h'.noReset, h.session.trans h'.session, h'.host.trans h.host, h'.params.trans h.params⟩

/-- The state in which a step of an attempt executes its event: the offer taken from the channel, if there is one. -/
def State.fetchedChan (s : State) : State :=
  match s.env.chan with
  | [] => s.dropRst
  | o :: rest => s.dropRst.afterChan o rest

/-- The event of a step of an attempt. -/
def State.chanEvent (s : State) : Instr :=
  match s.env.chan with
  | [] => .expire
  | o :: _ => o.event

theorem State.fetchedChan_of_chan {s : State} {o : ChanOffer} {rest : List ChanOffer} (hc : s.env.chan = o :: rest) :
    s.fetchedChan = s.dropRst.afterChan o rest := by
  unfold State.fetchedChan; rw [hc]

theorem State.chanEvent_of_chan {s : State} {o : ChanOffer} {rest : List ChanOffer} (hc : s.env.chan = o :: rest) :
    s.chanEvent = o.event := by
  unfold State.chanEvent; rw [hc]

theorem step_eq_exec_chanEvent {s : State} (hp : s.phase = .hdr ∨ s.phase = .body) (hno : s.NoReset) :
    step s = exec s.chanEvent s.fetchedChan := by
  unfold State.chanEvent State.fetchedChan
  cases hc : s.env.chan with
  | nil => exact step_of_noChan hp hno.rstNow hc
  | cons o rest => exact step_of_chan hp hno.rstNow hc

/-- Only channel events are taken in an attempt. -/
theorem State.chanEvent_cases (s : State) : s.chanEvent = .expire ∨ s.chanEvent = .ioerr ∨ ∃ b, s.chanEvent = .rx b := by
  unfold State.chanEvent
  rcases s.env.chan with _ | ⟨o, rest⟩
  · exact .inl rfl
  · cases o with
    | byte b now => exact .inr (.inr ⟨b, rfl⟩)
    | eof => exact .inl rfl
    | windowEnd => exact .inl rfl
    | error => exact .inr (.inl rfl)

theorem State.sameBlock_fetchedChan (s : State) : s.SameBlock s.fetchedChan := by
  unfold State.fetchedChan
  split <;> simp [State.SameBlock]

theorem State.Inv.fetchedChan {s : State} (h : s.Inv) : s.fetchedChan.Inv := h.of_sameBlock s.sameBlock_fetchedChan

@[simp] theorem State.fetchedChan_phase (s : State) : s.fetchedChan.phase = s.phase := by
  obtain ⟨-, -, h, -⟩ := s.sameBlock_fetchedChan
  exact h

@[simp] theorem State.fetchedChan_cnt (s : State) : s.fetchedChan.cnt = s.cnt := by
  obtain ⟨-, -, -, h, -⟩ := s.sameBlock_fetchedChan
  exact h

@[simp] theorem State.fetchedChan_buf (s : State) : s.fetchedChan.buf = s.buf := by
  obtain ⟨-, -, -, -, -, h, -⟩ := s.sameBlock_fetchedChan
  exact h

@[simp] theorem State.fetchedChan_params (s : State) : s.fetchedChan.params = s.params := by
  obtain ⟨h, -⟩ := s.sameBlock_fetchedChan
  exact h

theorem State.fetchedChan_env (s : State) :
    s.fetchedChan.env = { host := s.env.host, chan := s.env.chan.tail, rst := s.env.rst.tail } := by
  unfold State.fetchedChan
  cases hc : s.env.chan with
  | nil => simp [State.dropRst, hc]
  | cons o rest => rw [State.afterChan_env]; rfl

theorem rxSlot_fetchedChan (s : State) : rxSlot s.fetchedChan = rxSlot s := by
  unfold rxSlot; rw [State.fetchedChan_cnt]

theorem State.SessionKept.of_sameBlock {s u : State} (h : s.SameBlock u) : s.SessionKept u := by
  obtain ⟨-, hsession, -, -, -, -, htmo, -⟩ := h
  exact ⟨hsession, htmo⟩

/-- A channel event leaves `session` and `tmo`. -/
theorem exec_chanEvent_sessionKept {s u t : State} (he : exec s.chanEvent u = .next t) : u.SessionKept t := by
  have hev := s.chanEvent_cases
  rcases (exec_rule he).sessionWriters with hkept | ⟨hi, -⟩ | ⟨arg, hi, -⟩ | ⟨arg, hi, -⟩
  · exact hkept
  all_goals rw [hi] at hev; simp at hev

/-- A step of an attempt leaves the list of channel events without its first. -/
theorem step_attempt_kept {s t : State} (h : s.Inv) (hp : s.phase = .hdr ∨ s.phase = .body) (hno : s.NoReset)
    (hstep : step s = .next t) : s.KeptInAttempt t ∧ t.env.chan = s.env.chan.tail := by
  have he : exec s.chanEvent s.fetchedChan = .next t := (step_eq_exec_chanEvent hp hno).symm.trans hstep
  obtain ⟨-, henv, hpar⟩ := exec_outsideKept he
  rw [State.fetchedChan_env] at henv
  refine ⟨⟨stepKeepsInvariant s t h hstep, fun high hmem => ?_, ?_, ?_, ?_⟩, ?_⟩
  · rw [henv] at hmem
    exact hno high (List.mem_of_mem_tail hmem)
  · exact (State.SessionKept.of_sameBlock s.sameBlock_fetchedChan).trans (exec_chanEvent_sessionKept he)
  · rw [henv]
  · rw [hpar, State.fetchedChan_params]
  · rw [henv]

/-! ## Every attempt ends (R87, R111) -/

/-- A step of an attempt ends it with a result, or takes a byte and goes on. -/
theorem step_attempt {s : State} (h : s.Inv) (hp : s.phase = .hdr ∨ s.phase = .body) (hno : s.NoReset) :
    ∃ t, step s = .next t ∧ s.KeptInAttempt t ∧ t.env.chan = s.env.chan.tail ∧
      ((t.phase = .idle ∧ t.resValid = true) ∨
       ((t.phase = .hdr ∨ t.phase = .body) ∧ t.resValid = false ∧ t.cnt.toNat = s.cnt.toNat + 1 ∧ s.env.chan ≠ [])) := by
  have hev := s.chanEvent_cases
  have hen : s.fetchedChan.Enabled s.chanEvent := by
    rw [← State.fetchedChan_phase] at hp
    rcases hev with he | he | ⟨b, he⟩ <;> rw [he] <;> exact hp
  obtain ⟨t, he⟩ := enabledEventsComplete _ _ h.fetchedChan hen
  have hstep : step s = .next t := (step_eq_exec_chanEvent hp hno).trans he
  obtain ⟨hkept, hchan⟩ := step_attempt_kept h hp hno hstep
  refine ⟨t, hstep, hkept, hchan, ?_⟩
  cases exec_effect he with
  | resets hi ht => rw [hi] at hev; simp at hev
  | goesOn hphase hlast hquiet hsession houtside hbuf =>
    rcases hbuf with ⟨⟨arg, hi⟩, -⟩ | ⟨b, hi, -, hcnt, -⟩
    · rw [hi] at hev; simp at hev
    · refine .inr ⟨hphase, hquiet, ?_, fun hnil => ?_⟩
      · rw [hcnt, State.fetchedChan_cnt]
        exact cnt_add_one_toNat h.cnt_lt
      · rw [State.chanEvent, hnil] at hi
        cases hi
  | ends st m u ht hst houtside hmeas hjudged => subst ht; exact .inl ⟨rfl, rfl⟩

/-- The state between the steps of a command: no result, an attempt in progress, and the host's commands `hs`. -/
def State.Pending (hs : List HostOffer) (u : State) : Prop := u.resValid = false ∧ u.phase ≠ .idle ∧ u.env.host = hs

/-- Every state strictly within a run of `k` steps satisfies `P`. -/
def Within (P : State → Prop) (k : Nat) (s : State) : Prop := ∀ j u, 0 < j → j < k → steps j s = .next u → P u

theorem Within.one (P : State → Prop) (s : State) : Within P 1 s := fun _ _ hj hk _ => absurd hk (Nat.not_lt.mpr hj)

theorem Within.cons {P : State → Prop} {k : Nat} {s v : State} (hstep : step s = .next v) (hv : P v) (h : Within P k v) :
    Within P (k + 1) s := by
  intro j u hj hk hu
  obtain ⟨j, rfl⟩ := Nat.exists_eq_succ_of_ne_zero (Nat.ne_of_gt hj)
  rw [steps_succ_of_step hstep] at hu
  rcases Nat.eq_zero_or_pos j with rfl | hpos
  · exact Host.Outcome.next.inj hu ▸ hv
  · exact h j u hpos (Nat.lt_of_succ_lt_succ hk) hu

/-- `k` steps end the attempt, and no fewer. -/
structure State.EndsIn (s : State) (k : Nat) (t : State) : Prop where
  run : steps k s = .next t
  kept : s.KeptInAttempt t
  phase : t.phase = .idle
  strobe : t.resValid = true
  within : Within (State.Pending s.env.host) k s

theorem State.EndsIn.cons {s v t : State} {k : Nat} (hstep : step s = .next v) (hkept : s.KeptInAttempt v)
    (hv : v.resValid = false ∧ v.phase ≠ .idle) (h : v.EndsIn k t) : s.EndsIn (k + 1) t :=
  ⟨(steps_succ_of_step hstep k).trans h.run, hkept.trans h.kept, h.phase, h.strobe,
    .cons hstep ⟨hv.1, hv.2, hkept.host⟩ (hkept.host ▸ h.within)⟩

theorem busy_of_attempt {s : State} (hp : s.phase = .hdr ∨ s.phase = .body) : s.phase ≠ .idle := by
  rcases hp with hp | hp <;> rw [hp] <;> decide

/-- An attempt ends, by induction on the bytes that it may still take. -/
theorem exists_endsIn {n : Nat} {s : State} (h : s.Inv) (hp : s.phase = .hdr ∨ s.phase = .body) (hno : s.NoReset)
    (hn : 32 - s.cnt.toNat ≤ n) :
    ∃ k t taken, 1 ≤ k ∧ k ≤ s.env.chan.length + 1 ∧ k ≤ 32 - s.cnt.toNat ∧ s.EndsIn k t ∧
      s.env.chan = taken ++ t.env.chan ∧ taken.length ≤ k := by
  have hcnt : s.cnt.toNat < 32 := h.cnt_lt
  induction n generalizing s with
  | zero => omega
  | succ n ih =>
    obtain ⟨t, hstep, hkept, hchan, ⟨hidle, hstrobe⟩ | ⟨hp', hquiet, hc, hne⟩⟩ := step_attempt h hp hno
    · refine ⟨1, t, s.env.chan.take 1, le_rfl, Nat.le_add_left _ _, by omega, ?_, ?_, List.length_take_le _ _⟩
      · exact ⟨steps_one_of_step hstep, hkept, hidle, hstrobe, Within.one _ s⟩
      · rw [hchan, ← List.drop_one, List.take_append_drop]
    · obtain ⟨k, t', taken, -, hk', hk, hends, htaken, hlen⟩ :=
        ih hkept.inv hp' hkept.noReset (by omega) hkept.inv.cnt_lt
      obtain ⟨o, rest, ho⟩ := List.exists_cons_of_ne_nil hne
      rw [ho, List.tail_cons] at hchan
      refine ⟨k + 1, t', o :: taken, Nat.succ_pos k, ?_, by omega, .cons hstep hkept ⟨hquiet, busy_of_attempt hp'⟩ hends,
        ?_, Nat.succ_le_succ hlen⟩
      · rw [ho, List.length_cons, ← hchan]
        exact Nat.succ_le_succ hk'
      · rw [ho, ← hchan, htaken, List.cons_append]

/-- Settles O48: each step ends the attempt or takes one of the at most 32 bytes. -/
theorem everyAttemptEnds : Obligations.EveryAttemptEnds := by
  intro s h hp hno
  obtain ⟨k, t, taken, h1, h2, h3, hends, htaken, hlen⟩ := exists_endsIn h hp hno le_rfl
  refine ⟨k, t, taken, h1, h2, h3, hends.run, hends.phase, hends.strobe, hends.kept.session, hends.kept.host, htaken, hlen,
    fun j u hj hk hu => ?_⟩
  obtain ⟨hquiet, hbusy, -⟩ := hends.within j u hj hk hu
  exact ⟨hquiet, hbusy⟩

theorem decodeCommand_ne_reset (tmoW : Nat) (w : CmdWord) : decodeCommand tmoW w ≠ .reset := by
  unfold decodeCommand
  split_ifs <;> exact nofun

/-- Settles O49: the command's own step gives the result, or starts an attempt, which ends. -/
theorem everyCommandGetsOneResult : Obligations.EveryCommandGetsOneResult := by
  intro s o rest h hp hno hh
  have hf := fetch_of_host hp hno.rstNow hh
  obtain ⟨t, he⟩ := enabledEventsComplete _ _ (h.of_sameBlock (fetch_cases hf).1) (fetch_enabled hf)
  have hstep : step s = .next t := (step_of_fetch hf).trans he
  obtain ⟨-, henv, -⟩ := exec_outsideKept he
  have hhost : t.env.host = rest := by rw [henv]
  cases exec_effect he with
  | resets hi ht => exact absurd hi (decodeCommand_ne_reset _ _)
  | ends st m u ht hst houtside hmeas hjudged =>
    have hphase : t.phase = .idle := by rw [ht]; rfl
    have hstrobe : t.resValid = true := by rw [ht]; rfl
    exact ⟨1, t, le_rfl, by decide, steps_one_of_step hstep, hphase, hstrobe, hhost, Within.one _ s⟩
  | goesOn hphase hlast hquiet hsession houtside hbuf =>
    have hno' : t.NoReset := fun high hmem => hno high (List.mem_of_mem_tail (by rwa [henv] at hmem))
    obtain ⟨k, t', -, -, -, hk, hends, -⟩ := exists_endsIn (stepKeepsInvariant s t h hstep) hphase hno' le_rfl
    refine ⟨k + 1, t', Nat.succ_pos k, by omega, (steps_succ_of_step hstep k).trans hends.run, hends.phase, hends.strobe,
      hends.kept.host.trans hhost, Within.cons hstep ⟨hquiet, hhost⟩ fun j u hj hj' hu => ?_⟩
    obtain ⟨hq, -, hhost'⟩ := hends.within j u hj hj' hu
    exact ⟨hq, hhost'.trans hhost⟩

/-! ## The bytes of an attempt (R101 to R105, R186) -/

/-- An attempt in progress has taken the bytes `bs`. -/
structure State.Took (s : State) (bs : List Byte) : Prop where
  attempt : s.phase = .hdr ∨ s.phase = .body
  slots : Memory.Holds s.buf bs
  count : rxSlot s = bs.length

/-- A byte before the 32nd goes on with the attempt, a second one if the header matches. -/
theorem State.Took.exec_rx {s : State} {bs : List Byte} (ht : s.Took bs) (h : s.Inv) {b : Byte} (hlt : bs.length < 31)
    (hmagic : bs.length = 1 → bs.getD 0 0#8 = Config.magic0 ∧ b = Config.magic1) :
    ∃ t, exec (.rx b) s = .next t ∧ t.resValid = false ∧ t.Took (bs ++ [b]) := by
  obtain ⟨hp, hslots, hcount⟩ := ht
  have stored {t : State} (hp' : t.phase = .hdr ∨ t.phase = .body) (hbuf : t.buf = Memory.put s.buf (rxSlot s) b)
      (hcnt : t.cnt = s.cnt + 1#6) : t.Took (bs ++ [b]) := by
    refine ⟨hp', ?_, ?_⟩
    · rw [hbuf, hcount]
      exact hslots.put_append b
    · have hnat : rxSlot t = rxSlot s + 1 := (congrArg BitVec.toNat hcnt).trans (cnt_add_one_toNat h.cnt_lt)
      rw [hnat, hcount, List.length_append, List.length_singleton]
  rcases hp with hp | hp
  · by_cases hn : rxSlot s = 1
    · obtain ⟨h0, h1⟩ := hmagic (hcount.symm.trans hn)
      have hslot : Memory.slot s.buf 0 = some Config.magic0 := h0 ▸ hslots 0 (by omega)
      exact ⟨_, rule_exec (.headerMatch b hp hn hslot h1), rfl, stored (.inr rfl) rfl rfl⟩
    · exact ⟨_, rule_exec (.headerByte b hp h.cnt_lt hn), rfl, stored (.inl hp) rfl rfl⟩
  · exact ⟨_, rule_exec (.bodyByte b hp h.cnt_lt (by omega)), rfl, stored (.inr hp) rfl rfl⟩

theorem State.Took.fetchedChan {s : State} {bs : List Byte} (ht : s.Took bs) : s.fetchedChan.Took bs := by
  obtain ⟨hp, hslots, hcount⟩ := ht
  exact ⟨by rwa [State.fetchedChan_phase], by rwa [State.fetchedChan_buf], by rwa [rxSlot_fetchedChan]⟩

/-- The step that takes a byte from the channel executes its RX. -/
theorem step_of_byte {s : State} {b : Byte} {now : Timestamp} {rest : List ChanOffer}
    (hp : s.phase = .hdr ∨ s.phase = .body) (hno : s.NoReset) (hc : s.env.chan = .byte b now :: rest) :
    step s = exec (.rx b) s.fetchedChan := by
  rw [step_eq_exec_chanEvent hp hno, State.chanEvent_of_chan hc]
  rfl

theorem State.Took.step {s : State} {bs : List Byte} (ht : s.Took bs) (h : s.Inv) (hno : s.NoReset) {b : Byte}
    {now : Timestamp} {rest : List ChanOffer} (hc : s.env.chan = .byte b now :: rest) (hlt : bs.length < 31)
    (hmagic : bs.length = 1 → bs.getD 0 0#8 = Config.magic0 ∧ b = Config.magic1) :
    ∃ t, step s = .next t ∧ t.resValid = false ∧ t.Took (bs ++ [b]) ∧ s.KeptInAttempt t ∧ t.env.chan = rest := by
  obtain ⟨t, he, hquiet, ht'⟩ := ht.fetchedChan.exec_rx h.fetchedChan hlt hmagic
  have hstep : Machine.step s = .next t := (step_of_byte ht.attempt hno hc).trans he
  obtain ⟨hkept, hchan⟩ := step_attempt_kept h ht.attempt hno hstep
  exact ⟨t, hstep, hquiet, ht', hkept, hchan.trans (by rw [hc, List.tail_cons])⟩

/-- Two runs, one after the other. -/
theorem steps_add {k : Nat} {s t : State} (h : steps k s = .next t) (j : Nat) : steps (k + j) s = steps j t := by
  induction k generalizing s with
  | zero => rw [Nat.zero_add, Host.Outcome.next.inj h]
  | succ k ih =>
    obtain ⟨u, hu, hk⟩ := steps_succ_cases h
    rw [Nat.succ_add, steps_succ_of_step hu, ih hk]

/-- Bytes that begin with the header are taken, up to the 31st, by induction on them. -/
theorem State.Took.steps {s : State} {bs all : List Byte} (ht : s.Took bs) (h : s.Inv) (hno : s.NoReset)
    {ps : List (Byte × Timestamp)} {rest : List ChanOffer} (hc : s.env.chan = byteOffers ps ++ rest)
    (hall : bs ++ ps.map Prod.fst = all) (hlen : all.length ≤ 31) (h0 : all.getD 0 0#8 = Config.magic0)
    (h1 : all.getD 1 0#8 = Config.magic1) :
    ∃ t, steps ps.length s = .next t ∧ t.Took all ∧ s.KeptInAttempt t ∧ t.env.chan = rest := by
  induction ps generalizing s bs with
  | nil =>
    rw [List.map_nil, List.append_nil] at hall
    exact ⟨s, rfl, hall ▸ ht, .refl h hno, hc⟩
  | cons p ps ih =>
    obtain ⟨b, now⟩ := p
    have hlt : bs.length < 31 := by
      rw [← hall, List.length_append, List.map_cons, List.length_cons] at hlen
      omega
    have hmagic : bs.length = 1 → bs.getD 0 0#8 = Config.magic0 ∧ b = Config.magic1 := by
      intro hone
      obtain ⟨b0, rfl⟩ := List.length_eq_one_iff.mp hone
      subst hall
      exact ⟨h0, h1⟩
    obtain ⟨t, hstep, -, ht', hkept, hchan⟩ := ht.step h hno hc hlt hmagic
    obtain ⟨t', hsteps, ht'', hkept', hrest⟩ :=
      ih ht' hkept.inv hkept.noReset hchan (by rw [← hall, List.append_assoc]; rfl)
    exact ⟨t', (steps_succ_of_step hstep ps.length).trans hsteps, ht'', hkept.trans hkept', hrest⟩

/-- The beginning of an attempt. -/
theorem State.took_nil {s : State} (hp : s.phase = .hdr) (hc : s.cnt = 0#6) : s.Took [] :=
  ⟨.inl hp, fun _ hi => absurd hi (Nat.not_lt_zero _), rxSlot_of_cnt hc⟩

/-- More than one byte is in only when the header matched. -/
theorem State.Took.body {s : State} {bs : List Byte} (ht : s.Took bs) (h : s.Inv) (hlen : 1 < bs.length) :
    s.phase = .body := by
  rcases ht.attempt with hp | hp
  · exact absurd (ht.count ▸ h.hdrCnt hp : bs.length ≤ 1) (Nat.not_le.mpr hlen)
  · exact hp

/-- One byte is in only in the header phase. -/
theorem State.Took.hdr {s : State} {bs : List Byte} (ht : s.Took bs) (h : s.Inv) (hlen : bs.length < 2) :
    s.phase = .hdr := by
  rcases ht.attempt with hp | hp
  · exact hp
  · have hge : 2 ≤ rxSlot s := (h.bodyCnt hp).1
    exact absurd (ht.count ▸ hge) (Nat.not_le.mpr hlen)

theorem State.fetchedChan_now {s : State} {b : Byte} {now : Timestamp} {rest : List ChanOffer}
    (hc : s.env.chan = .byte b now :: rest) : s.fetchedChan.inp.now = lowBits s.params.tsW now := by
  rw [State.fetchedChan_of_chan hc, State.afterChan_now, State.dropRst_params]

/-- The step that takes the 32nd byte judges the frame. -/
theorem State.Took.step_last {s : State} {bs : List Byte} (ht : s.Took bs) (h : s.Inv) (hno : s.NoReset) {b : Byte}
    {now : Timestamp} {rest : List ChanOffer} (hc : s.env.chan = .byte b now :: rest) (hlen : bs.length = 31) :
    ∃ t, Machine.step s = .next t ∧ s.KeptInAttempt t ∧ t.env.chan = rest ∧
      ((frameValid (bs ++ [b]) ∧ t.Ended .ok (some (frameMeasurement (bs ++ [b]) (lowBits s.params.tsW now)))) ∨
       (¬frameValid (bs ++ [b]) ∧ t.Ended .csumFail none)) := by
  have hp : s.fetchedChan.phase = .body := by rw [State.fetchedChan_phase]; exact ht.body h (by omega)
  obtain ⟨t, he, -, -, hend⟩ := completionChecksTheFrame s.fetchedChan bs b h.fetchedChan hp hlen
    fun i hi => ht.fetchedChan.slots i (hlen.symm ▸ hi)
  have hstep : Machine.step s = .next t := (step_of_byte ht.attempt hno hc).trans he
  obtain ⟨hkept, hchan⟩ := step_attempt_kept h ht.attempt hno hstep
  rw [State.fetchedChan_now hc] at hend
  exact ⟨t, hstep, hkept, hchan.trans (by rw [hc, List.tail_cons]), hend⟩

/-- Settles O44: 31 bytes are taken, and the 32nd is judged. -/
theorem frameOfThirtyTwoBytesIsJudged : Obligations.FrameOfThirtyTwoBytesIsJudged := by
  intro s ps bs b now rest h hp hc hno hlen hbs h0 h1 hchan
  subst hbs
  have hlen' : (ps.map Prod.fst).length = 31 := by rw [List.length_map, hlen]
  rw [List.getD_append _ _ _ _ (by omega)] at h0 h1
  rw [byteOffers, List.map_append, List.append_assoc] at hchan
  obtain ⟨u, hsteps, hu, hkept, hrest⟩ :=
    (State.took_nil hp hc).steps h hno hchan (List.nil_append _) hlen'.le h0 h1
  obtain ⟨t, hstep, hkept', hchan', hend⟩ := hu.step_last hkept.inv hkept.noReset hrest hlen'
  rw [hlen] at hsteps
  rw [hkept.params] at hend
  obtain ⟨-, -, hsession, hhost, -⟩ := hkept.trans hkept'
  exact ⟨t, (steps_add hsteps 1).trans (steps_one_of_step hstep), hsession, hhost, hchan', hend⟩

/-- Settles O45: the first byte goes on, and the second meets the rule of a header that does not match. -/
theorem badHeaderTakesTwoBytes : Obligations.BadHeaderTakesTwoBytes := by
  intro s b0 b1 now0 now1 rest h hp hc hno hchan hbad
  obtain ⟨u, hstep, hquiet, hu, hkept, hrest⟩ :=
    (State.took_nil hp hc).step h hno hchan (by decide) (fun hone => absurd hone (by decide))
  have hhdr : u.phase = .hdr := hu.hdr hkept.inv Nat.one_lt_two
  have hslot : Memory.slot u.fetchedChan.buf 0 = some b0 := hu.fetchedChan.slots 0 Nat.zero_lt_one
  have hr := Rule.headerMismatch b1 b0 (s := u.fetchedChan) (by rwa [State.fetchedChan_phase]) hu.fetchedChan.count hslot hbad
  obtain ⟨t, he, hend, -⟩ := exec_ends_of_rule hr ⟨rfl, rfl⟩ ⟨rfl, rfl, rfl⟩
  have hstep' : step u = .next t := (step_of_byte hu.attempt hkept.noReset hrest).trans he
  obtain ⟨hkept', hchan'⟩ := step_attempt_kept hkept.inv hu.attempt hkept.noReset hstep'
  obtain ⟨-, -, hsession, hhost, -⟩ := hkept.trans hkept'
  exact ⟨t, u, steps_one_of_step hstep, hhdr, hquiet, (steps_succ_of_step hstep 1).trans (steps_one_of_step hstep'), hend,
    hsession, hhost, hchan'.trans (by rw [hrest, List.tail_cons])⟩

/-- Settles O46: with the header it is an attempt of 32 bytes, without it one of 2. -/
theorem attemptsTakeTwoBytesOrThirtyTwo : Obligations.AttemptsTakeTwoBytesOrThirtyTwo := by
  intro s ps rest h hp hc hno hlen hchan
  split_ifs with hm
  · obtain ⟨init, ⟨b, now⟩, rfl⟩ : ∃ init p, ps = init ++ [p] :=
      (List.eq_nil_or_concat' ps).resolve_left (List.ne_nil_of_length_pos (by omega))
    have hinit : init.length = 31 := by rw [List.length_append, List.length_singleton] at hlen; omega
    obtain ⟨t, hsteps, -, -, hrest, hend⟩ :=
      frameOfThirtyTwoBytesIsJudged s init _ b now rest h hp hc hno hinit List.map_append hm.1 hm.2 hchan
    have hdone : t.phase = .idle ∧ t.resValid = true := by
      rcases hend with ⟨-, he⟩ | ⟨-, he⟩ <;> exact ⟨he.phase, he.strobe⟩
    exact ⟨32, t, rfl, hsteps, hdone.1, hdone.2, by rw [hrest, ← hlen, List.drop_length]; rfl⟩
  · match ps, hlen with
    | (b0, now0) :: (b1, now1) :: ps, _ =>
      obtain ⟨t, -, -, -, -, hsteps, hend, -, -, hrest⟩ :=
        badHeaderTakesTwoBytes s b0 b1 now0 now1 (byteOffers ps ++ rest) h hp hc hno hchan hm
      exact ⟨2, t, rfl, hsteps, hend.phase, hend.strobe, hrest⟩

/-- Under R32 an attempt has taken its bytes. -/
theorem State.Inv.took {s : State} (h : s.Inv) (hp : s.phase = .hdr ∨ s.phase = .body) : s.Took s.bytesTaken :=
  ⟨hp, h.holds_bytesTaken, s.length_bytesTaken.symm⟩

/-- Settles O47: the byte first is judged, the window's end first expires. -/
theorem windowRaceHasBothOutcomes : Obligations.WindowRaceHasBothOutcomes := by
  intro s b now rest h hp hc hno
  refine ⟨fun hchan => ?_, fun hchan => ?_⟩
  · have hlen : s.bytesTaken.length = 31 := s.length_bytesTaken.trans (rxSlot_of_cnt hc)
    obtain ⟨t, hstep, -, hrest, ⟨-, hend⟩ | ⟨-, hend⟩⟩ := (h.took (.inr hp)).step_last h hno hchan hlen
    · exact ⟨t, _, hstep, .inl hend, hrest⟩
    · exact ⟨t, _, hstep, .inr hend, hrest⟩
  · obtain ⟨-, -, hexpire⟩ := expireEndsTheAttempt
    obtain ⟨t, he, hend, -⟩ := hexpire s.fetchedChan (.inr (s.fetchedChan_phase.trans hp))
    have hev : s.chanEvent = .expire := State.chanEvent_of_chan hchan
    have hstep : step s = .next t := (step_eq_exec_chanEvent (.inr hp) hno).trans (hev ▸ he)
    obtain ⟨-, hrest⟩ := step_attempt_kept h (.inr hp) hno hstep
    exact ⟨t, hstep, hend, hrest.trans (by rw [hchan, List.tail_cons])⟩

end Sys2Proof.Machine
end

section
/-!
PROOFS. The float scaler: the binary64 number nearest to `v / 10` (R66, R141; log 17).
-/

namespace Sys2Proof.Machine

/-! ## The exponent and the significand, for a natural number from 1 to 65535 -/

/-- `v` counted in units of the last place of its scaled result: the significand is a tenth of it, rounded. -/
def scaledTarget (n : Nat) : Nat := n * 2 ^ (56 - scaledLog n)

theorem scaledSignificand_eq (n : Nat) : scaledSignificand n = (scaledTarget n + 5) / 10 := rfl

theorem scaledLog_le {n : Nat} (hn : n < 65536) : scaledLog n ≤ 16 := by
  have hlt : 16 * n / 10 < 2 ^ 17 := by omega
  by_cases hz : 16 * n / 10 = 0
  · rw [scaledLog, hz]
    decide
  · exact Nat.lt_succ_iff.mp ((Nat.log2_lt hz).mpr hlt)

/-- The `L` of the definition: `2 ^ L ≤ 16 * v / 10 < 2 ^ (L + 1)`, the division cut off. -/
theorem scaledLog_bounds {n : Nat} (hn : n ≠ 0) :
    10 * 2 ^ scaledLog n ≤ 16 * n ∧ 16 * n + 1 ≤ 10 * 2 ^ (scaledLog n + 1) := by
  have hz : 16 * n / 10 ≠ 0 := by omega
  have hlo : 2 ^ scaledLog n ≤ 16 * n / 10 := Nat.log2_self_le hz
  have hhi : 16 * n / 10 < 2 ^ (scaledLog n + 1) := Nat.lt_log2_self
  omega

/-- The target has the size of ten 53-bit significands. -/
theorem scaledTarget_bounds {n : Nat} (hn : n ≠ 0) (hlt : n < 65536) :
    10 * 2 ^ 52 ≤ scaledTarget n ∧ scaledTarget n + 2 ^ 36 ≤ 10 * 2 ^ 53 := by
  have hL := scaledLog_le hlt
  obtain ⟨hlo, hhi⟩ := scaledLog_bounds hn
  have hlo' : 10 * 2 ^ 56 ≤ 16 * scaledTarget n :=
    calc 10 * 2 ^ 56 = 10 * 2 ^ scaledLog n * 2 ^ (56 - scaledLog n) := by
          rw [Nat.mul_assoc, ← Nat.pow_add, Nat.add_sub_cancel' (by omega)]
      _ ≤ 16 * n * 2 ^ (56 - scaledLog n) := Nat.mul_le_mul_right _ hlo
      _ = 16 * scaledTarget n := Nat.mul_assoc _ _ _
  have hhi' : 16 * scaledTarget n + 2 ^ (56 - scaledLog n) ≤ 10 * 2 ^ 57 :=
    calc 16 * scaledTarget n + 2 ^ (56 - scaledLog n) = (16 * n + 1) * 2 ^ (56 - scaledLog n) := by
          rw [scaledTarget, Nat.add_mul, Nat.one_mul, Nat.mul_assoc]
      _ ≤ 10 * 2 ^ (scaledLog n + 1) * 2 ^ (56 - scaledLog n) := Nat.mul_le_mul_right _ hhi
      _ = 10 * 2 ^ 57 := by rw [Nat.mul_assoc, ← Nat.pow_add]; congr 2; omega
  have hpow : 2 ^ 40 ≤ 2 ^ (56 - scaledLog n) := Nat.pow_le_pow_right (by decide) (by omega)
  omega

theorem scaledSignificand_bounds {n : Nat} (hn : n ≠ 0) (hlt : n < 65536) :
    2 ^ 52 ≤ scaledSignificand n ∧ scaledSignificand n < 2 ^ 53 := by
  obtain ⟨hlo, hhi⟩ := scaledTarget_bounds hn hlt
  rw [scaledSignificand_eq]
  omega

/-- No integer is nearer to a tenth of the target than the significand. -/
theorem scaledSignificand_nearest (n : Nat) (k : Int) :
    |10 * (scaledSignificand n : Int) - scaledTarget n| ≤ |10 * k - scaledTarget n| := by
  have hdiv : 10 * scaledSignificand n ≤ scaledTarget n + 5 ∧ scaledTarget n + 5 < 10 * scaledSignificand n + 10 := by
    rw [scaledSignificand_eq]
    omega
  rcases abs_cases (10 * (scaledSignificand n : Int) - scaledTarget n) with ⟨h, hs⟩ | ⟨h, hs⟩ <;>
    rcases abs_cases (10 * k - scaledTarget n) with ⟨h', hs'⟩ | ⟨h', hs'⟩ <;> rw [h, h'] <;> omega

/-- The significand misses a tenth of the target by half a unit at most. -/
theorem scaledSignificand_error (n : Nat) : |10 * (scaledSignificand n : Int) - scaledTarget n| ≤ 5 := by
  rw [abs_le, scaledSignificand_eq]
  omega

/-- The target is divisible by 10 exactly when `v` is by 5: the power of 2 in it is not the first. -/
theorem scaledSignificand_exact_iff {n : Nat} (hlt : n < 65536) :
    10 * (scaledSignificand n : Int) - scaledTarget n = 0 ↔ n % 5 = 0 := by
  have hL := scaledLog_le hlt
  have hten : 10 * (scaledSignificand n : Int) - scaledTarget n = 0 ↔ scaledTarget n % 10 = 0 := by
    rw [scaledSignificand_eq]
    omega
  have heven : scaledTarget n % 2 = 0 := by
    obtain ⟨m, hm⟩ := Nat.exists_eq_succ_of_ne_zero (n := 56 - scaledLog n) (by omega)
    rw [scaledTarget, hm, Nat.pow_succ, ← Nat.mul_assoc, Nat.mul_mod_left]
  have hfive : 5 ∣ scaledTarget n ↔ 5 ∣ n :=
    (Nat.Coprime.pow_right (56 - scaledLog n) (by decide : Nat.Coprime 5 2)).dvd_mul_right
  rw [hten]
  omega

/-! ## The pattern and its value -/

theorem toNat_ne_zero {v : Half} (hv : v ≠ 0#16) : v.toNat ≠ 0 := fun h => hv (BitVec.eq_of_toNat_eq h)

theorem f64Div10_toNat {v : Half} (hv : v ≠ 0#16) :
    (f64Div10 v).toNat = (scaledLog v.toNat + 1018) * 2 ^ 52 + scaledSignificand v.toNat := by
  have hL := scaledLog_le v.isLt
  obtain ⟨-, hhi⟩ := scaledSignificand_bounds (toNat_ne_zero hv) v.isLt
  rw [f64Div10, if_neg hv, BitVec.toNat_ofNat]
  omega

theorem f64Exponent_f64Div10 {v : Half} (hv : v ≠ 0#16) : f64Exponent (f64Div10 v) = scaledLog v.toNat + 1019 := by
  have hL := scaledLog_le v.isLt
  obtain ⟨hlo, hhi⟩ := scaledSignificand_bounds (toNat_ne_zero hv) v.isLt
  rw [f64Exponent, BitVec.extractLsb'_toNat, f64Div10_toNat hv, Nat.shiftRight_eq_div_pow]
  omega

theorem f64Fraction_f64Div10 {v : Half} (hv : v ≠ 0#16) :
    f64Fraction (f64Div10 v) = scaledSignificand v.toNat - 2 ^ 52 := by
  obtain ⟨hlo, hhi⟩ := scaledSignificand_bounds (toNat_ne_zero hv) v.isLt
  rw [f64Fraction, BitVec.extractLsb'_toNat, f64Div10_toNat hv, Nat.shiftRight_zero]
  omega

theorem f64Div10_sign (v : Half) : (f64Div10 v).getLsbD 63 = false := by
  by_cases hv : v = 0#16
  · rw [hv]; rfl
  · have hL := scaledLog_le v.isLt
    obtain ⟨-, hhi⟩ := scaledSignificand_bounds (toNat_ne_zero hv) v.isLt
    have hlt : (f64Div10 v).toNat < 2 ^ 63 := by rw [f64Div10_toNat hv]; omega
    exact Nat.testBit_lt_two_pow hlt

/-- The unit of the last place of the scaled result, in units of 2^-1074. -/
def scaledUlp (v : Half) : Int := 2 ^ (scaledLog v.toNat + 1018)

theorem scaledUlp_pos (v : Half) : 0 < scaledUlp v := pow_pos (by decide) _

theorem f64Value_f64Div10 {v : Half} (hv : v ≠ 0#16) :
    f64Value (f64Div10 v) = scaledSignificand v.toNat * scaledUlp v := by
  obtain ⟨hlo, -⟩ := scaledSignificand_bounds (toNat_ne_zero hv) v.isLt
  have hunits : f64Units (f64Div10 v) = scaledSignificand v.toNat * 2 ^ (scaledLog v.toNat + 1018) := by
    rw [f64Units, f64Exponent_f64Div10 hv, if_neg (Nat.succ_ne_zero _), f64Fraction_f64Div10 hv, Nat.add_sub_cancel' hlo]
    rfl
  rw [f64Value, f64Div10_sign, if_neg Bool.false_ne_true, hunits, Nat.cast_mul, Nat.cast_pow]
  rfl

theorem f64Value_f64Div10_zero : f64Value (f64Div10 0#16) = 0 := by decide

/-- `v` in units of 2^-1074, by its count in units of the last place. -/
theorem units_eq_scaledTarget (v : Half) : (v.toNat : Int) * f64UnitsPerOne = scaledTarget v.toNat * scaledUlp v := by
  have hL := scaledLog_le v.isLt
  have hsplit : f64UnitsPerOne = 2 ^ (56 - scaledLog v.toNat) * scaledUlp v := by
    have hexp : 56 - scaledLog v.toNat + (scaledLog v.toNat + 1018) = 1074 := by omega
    rw [f64UnitsPerOne, scaledUlp, ← pow_add, hexp]
  rw [hsplit, scaledTarget, Nat.cast_mul, Nat.cast_pow, mul_assoc]
  rfl

/-- The error of the scaler, as a number of units of the last place. -/
theorem scaler_error {v : Half} (hv : v ≠ 0#16) :
    10 * f64Value (f64Div10 v) - (v.toNat : Int) * f64UnitsPerOne =
      (10 * (scaledSignificand v.toNat : Int) - scaledTarget v.toNat) * scaledUlp v := by
  rw [f64Value_f64Div10 hv, units_eq_scaledTarget]
  ring

/-! ## Nearest (R141) -/

theorem f64Fraction_lt (x : F64) : f64Fraction x < 2 ^ 52 := (x.extractLsb' 0 52).isLt

/-- Counted in units of `2 ^ e`, a binary64 number is an integer, or it has too few bits and is at most 2^52. -/
theorem f64Value_cases (x : F64) (e : Nat) :
    (∃ k : Int, f64Value x = k * 2 ^ e) ∨ f64Value x ≤ 2 ^ 52 * 2 ^ e := by
  have hfrac := f64Fraction_lt x
  have units : (∃ k : Nat, f64Units x = k * 2 ^ e) ∨ f64Units x ≤ 2 ^ 52 * 2 ^ e := by
    unfold f64Units
    split_ifs with hz
    · exact .inr (hfrac.le.trans (Nat.le_mul_of_pos_right _ (Nat.two_pow_pos e)))
    · by_cases he : e ≤ f64Exponent x - 1
      · refine .inl ⟨(2 ^ 52 + f64Fraction x) * 2 ^ (f64Exponent x - 1 - e), ?_⟩
        rw [Nat.mul_assoc, ← Nat.pow_add, Nat.sub_add_cancel he]
      · refine .inr ?_
        calc (2 ^ 52 + f64Fraction x) * 2 ^ (f64Exponent x - 1)
          _ ≤ 2 ^ 53 * 2 ^ (f64Exponent x - 1) := Nat.mul_le_mul_right _ (by omega)
          _ = 2 ^ 52 * 2 ^ (f64Exponent x - 1 + 1) := by rw [Nat.pow_succ 2 (f64Exponent x - 1)]; ring
          _ ≤ 2 ^ 52 * 2 ^ e := Nat.mul_le_mul_left _ (Nat.pow_le_pow_right (by decide) (by omega))
  unfold f64Value
  split_ifs
  · exact .inr ((Int.neg_nonpos_of_nonneg (Int.natCast_nonneg _)).trans (by positivity))
  · rcases units with ⟨k, hk⟩ | hle
    · exact .inl ⟨k, by rw [hk, Nat.cast_mul, Nat.cast_pow]; rfl⟩
    · exact .inr (by exact_mod_cast hle)

/-- A number of the grid of the significand, or one below it, is no nearer to the target. -/
theorem nearest_of_grid {S N g y : Int} (hg : 0 < g) (hnear : ∀ k : Int, |10 * S - N| ≤ |10 * k - N|)
    (hN : 10 * 2 ^ 52 ≤ N) (hy : (∃ k : Int, y = k * g) ∨ y ≤ 2 ^ 52 * g) : |(10 * S - N) * g| ≤ |10 * y - N * g| := by
  rw [abs_mul, abs_of_pos hg]
  rcases hy with ⟨k, rfl⟩ | hle
  · calc |10 * S - N| * g ≤ |10 * k - N| * g := mul_le_mul_of_nonneg_right (hnear k) hg.le
      _ = |10 * (k * g) - N * g| := by rw [← abs_of_pos hg, ← abs_mul, abs_of_pos hg]; ring_nf
  · have hgrid : |10 * S - N| ≤ N - 10 * 2 ^ 52 := (hnear (2 ^ 52)).trans_eq (by rw [abs_sub_comm, abs_of_nonneg (by omega)])
    calc |10 * S - N| * g ≤ (N - 10 * 2 ^ 52) * g := mul_le_mul_of_nonneg_right hgrid hg.le
      _ ≤ N * g - 10 * y := by linarith
      _ ≤ |10 * y - N * g| := by rw [abs_sub_comm]; exact le_abs_self _

/-- Settles O42: a pattern lies on the grid of the result's last place, or below it. -/
theorem scalerGivesTheNearestFloat : Obligations.ScalerGivesTheNearestFloat := by
  intro v
  by_cases hv : v = 0#16
  · subst hv
    refine ⟨by rw [f64Finite]; decide, fun x _ => ?_⟩
    rw [f64Value_f64Div10_zero]
    simp
  · have hL := scaledLog_le v.isLt
    refine ⟨?_, fun x _ => ?_⟩
    · rw [f64Finite, f64Exponent_f64Div10 hv]
      omega
    · obtain ⟨hN, -⟩ := scaledTarget_bounds (toNat_ne_zero hv) v.isLt
      rw [scaler_error hv, units_eq_scaledTarget]
      exact nearest_of_grid (scaledUlp_pos v) (scaledSignificand_nearest v.toNat) (by exact_mod_cast hN)
        (f64Value_cases x _)

/-! ## The other properties (R141) -/

/-- The result is exact exactly for the multiples of 5. -/
theorem scaler_exact_iff (v : Half) :
    10 * f64Value (f64Div10 v) = (v.toNat : Int) * f64UnitsPerOne ↔ v.toNat % 5 = 0 := by
  by_cases hv : v = 0#16
  · subst hv
    rw [f64Value_f64Div10_zero]
    simp
  · rw [← sub_eq_zero, scaler_error hv, mul_eq_zero, or_iff_left (scaledUlp_pos v).ne', scaledSignificand_exact_iff v.isLt]

theorem f64UnitsPerOne_pos : 0 < f64UnitsPerOne := pow_pos (by decide) _

/-- `v` is the integer nearest to ten times the result: half a unit of the last place is far below 1 / 20. -/
theorem scaler_recovers (v : Half) :
    2 * |10 * f64Value (f64Div10 v) - (v.toNat : Int) * f64UnitsPerOne| < f64UnitsPerOne := by
  by_cases hv : v = 0#16
  · subst hv
    rw [f64Value_f64Div10_zero]
    simpa using f64UnitsPerOne_pos
  · have hL := scaledLog_le v.isLt
    have hpow : scaledUlp v * 2 ^ 4 ≤ f64UnitsPerOne := by
      rw [scaledUlp, f64UnitsPerOne, ← pow_add]
      exact pow_le_pow_right₀ (by decide) (by omega)
    have herr : |10 * (scaledSignificand v.toNat : Int) - scaledTarget v.toNat| * scaledUlp v ≤ 5 * scaledUlp v :=
      mul_le_mul_of_nonneg_right (scaledSignificand_error v.toNat) (scaledUlp_pos v).le
    have hpos := scaledUlp_pos v
    rw [scaler_error hv, abs_mul, abs_of_pos hpos]
    omega

/-- The scaler is strictly increasing, because the results recover their arguments. -/
theorem scaler_strictMono {v w : Half} (h : v.toNat < w.toNat) : f64Value (f64Div10 v) < f64Value (f64Div10 w) := by
  have hv := scaler_recovers v
  have hw := scaler_recovers w
  have hstep : (v.toNat : Int) * f64UnitsPerOne + f64UnitsPerOne ≤ (w.toNat : Int) * f64UnitsPerOne := by
    rw [← add_one_mul]
    exact mul_le_mul_of_nonneg_right (by exact_mod_cast h) f64UnitsPerOne_pos.le
  have hv' := le_abs_self (10 * f64Value (f64Div10 v) - (v.toNat : Int) * f64UnitsPerOne)
  have hw' := neg_abs_le (10 * f64Value (f64Div10 w) - (w.toNat : Int) * f64UnitsPerOne)
  omega

/-- Settles O43: exactness and recovery from the error in units of the last place, and monotonicity from recovery. -/
theorem scalerProperties : Obligations.ScalerProperties := by
  refine ⟨rfl, by decide, fun v => ⟨f64Div10_sign v, fun hv => ?_, scaler_exact_iff v, scaler_recovers v⟩,
    fun _ _ => scaler_strictMono⟩
  rw [f64Exponent_f64Div10 hv]
  exact Nat.succ_ne_zero _

end Sys2Proof.Machine
end

section
/-!
PROOFS. The program text: FRAME stands for a valid frame, BADFRAME for it with one byte changed (R70).
-/

namespace Sys2Proof.Machine

/-- The two bytes of a 16-bit field give it back. -/
theorem be16_be16Bytes {v : Nat} (h : v < 65536) : (be16 (BitVec.ofNat 8 (v / 256)) (BitVec.ofNat 8 v)).toNat = v := by
  rw [be16_toNat, BitVec.toNat_ofNat, BitVec.toNat_ofNat]
  omega

theorem length_fillBytes {fill : Option (List Byte)} (h : fillOk fill = true) : (fillBytes fill).length = 20 := by
  cases fill with
  | none => rfl
  | some bs => exact beq_iff_eq.mp h

/-- The ten bytes before the fillers, and the fillers. -/
theorem length_frameHead (a b c : Nat) {fill : Option (List Byte)} (h : fillOk fill = true) :
    (frameHead a b c fill).length = Config.summedLen := by
  have hlen : (frameHead a b c fill).length = (fillBytes fill).length + 10 := rfl
  rw [hlen, length_fillBytes h]

theorem length_frameBytes (a b c : Nat) {fill : Option (List Byte)} (h : fillOk fill = true) :
    (frameBytes a b c fill).length = Config.frameLen := by
  rw [frameBytes, List.length_append, length_frameHead a b c h]
  rfl

/-- The last two bytes are the sum's. -/
theorem frameBytes_getD_csum (a b c : Nat) {fill : Option (List Byte)} (h : fillOk fill = true) {i : Nat}
    (hi : Config.summedLen ≤ i) :
    (frameBytes a b c fill).getD i 0#8 = (be16Bytes (byteSum (frameHead a b c fill))).getD (i - Config.summedLen) 0#8 := by
  have hlen := length_frameHead a b c h
  rw [frameBytes, List.getD_append_right _ _ _ _ (hlen.le.trans hi), hlen]

/-- FRAME's checksum field is the sum of the bytes before it (R120). -/
theorem frameValid_frameBytes (a b c : Nat) {fill : Option (List Byte)} (h : fillOk fill = true) :
    frameValid (frameBytes a b c fill) := by
  have hsum : byteSum (frameHead a b c fill) < 65536 := Nat.mod_lt _ (by decide)
  refine ⟨length_frameBytes a b c h, ?_⟩
  rw [frameBytes_getD_csum a b c h (by decide), frameBytes_getD_csum a b c h (by decide), frameBytes,
    List.take_left' (length_frameHead a b c h)]
  exact (be16_be16Bytes hsum).symm

/-- Bytes 10 to 29 are the fillers. -/
theorem frameBytes_fill (a b c : Nat) {fill : Option (List Byte)} (h : fillOk fill = true) :
    ((frameBytes a b c fill).drop 10).take 20 = fillBytes fill :=
  List.take_left' (length_fillBytes h)

theorem not_ne_self (x : Byte) : ~~~x ≠ x := by
  intro h
  have hbit := congrArg (BitVec.getLsbD · 0) h
  simp at hbit

/-- BADFRAME changes byte 31, so it is no valid frame (R125). -/
theorem not_frameValid_badFrameBytes (a b c : Nat) {fill : Option (List Byte)} (h : fillOk fill = true) :
    ¬frameValid (badFrameBytes a b c fill) :=
  oneChangedByteIsCaught _ 31 _ (frameValid_frameBytes a b c h) (by decide) (not_ne_self _)

/-- What a well-formed FRAME line says of its operands. -/
theorem frame_wellFormed {p : Params} {a b c : Nat} {fill : Option (List Byte)} {now : Timestamp}
    (h : (Line.frame a b c fill now).wellFormed p = true) : a < 65536 ∧ b < 65536 ∧ c < 65536 ∧ fillOk fill = true := by
  simp only [Line.wellFormed, frameOperandsOk, Bool.and_eq_true, decide_eq_true_eq] at h
  obtain ⟨⟨⟨⟨ha, hb⟩, hc⟩, hfill⟩, -⟩ := h
  exact ⟨Nat.lt_succ_of_le ha, Nat.lt_succ_of_le hb, Nat.lt_succ_of_le hc, hfill⟩

/-- Settles O50: the bytes are read off FRAME's layout, and BADFRAME is FRAME with one byte set. -/
theorem frameLinesExpand : Obligations.FrameLinesExpand := by
  intro p a b c fill now hwf
  obtain ⟨ha, hb, hc, hfill⟩ := frame_wellFormed hwf
  have hlen : (frameBytes a b c fill).length = 32 := length_frameBytes a b c hfill
  refine ⟨rfl, frameValid_frameBytes a b c hfill, rfl, be16_be16Bytes ha, be16_be16Bytes hb, be16_be16Bytes hc, ?_, ?_, rfl,
    ?_, ?_, ?_, not_frameValid_badFrameBytes a b c hfill⟩
  · rintro bs rfl
    exact frameBytes_fill a b c hfill
  · rintro rfl
    exact frameBytes_fill a b c hfill
  · rw [badFrameBytes, List.length_set, hlen]
  · exact List.take_set_of_le le_rfl
  · exact getD_set_same (by omega) _

end Sys2Proof.Machine
end
